-- ==== Sys2Proof/Config.lean ====
section
/-! DEFINITION. The parameters the source leaves open (00_scope.md R9). "A model takes each as an argument":
a function that depends on one takes it, or a `Config`, as its argument. -/

namespace Sys2Proof

/-- The three open parameters of R9. -/
structure Config where
  /-- LATENCY: the steps from the acceptance of a BLOCK to the first step at which `done` reads 1 (R9, D7). -/
  latency : Nat
  /-- DEBUG_DUMP: whether the diagnostic port exists (R9, R170, D15). -/
  debugDump : Bool
  /-- N_INSTANCES: how many independent cores a platform places (R9, R208, D19). -/
  nInstances : Nat
  deriving DecidableEq, Repr

/-- "a constant, independent of the data, with LATENCY ≥ 1" (R9). -/
def Config.wf (c : Config) : Bool := decide (1 ≤ c.latency)

/-- The reference sequencer's LATENCY is 23 and the default DEBUG_DUMP is 0 (R9). One core: this row's machine. -/
def Config.reference : Config := { latency := 23, debugDump := false, nInstances := 1 }

end Sys2Proof
end

