-- ==== Sys2Proof/Word.lean ====
section
/-! DEFINITION. The word of the core, R8 and R10: 32 bits, unsigned, bit 0 least significant. -/

namespace Sys2Proof

/-- A 32-bit unsigned word (R8 WORD, R51). -/
abbrev Word := BitVec 32

/-- Sixteen words that all hold a value: a State, a Working array or an Output block (R8 STATE_WORDS). -/
abbrev Block := Vector Word 16

end Sys2Proof
end

