-- ==== Sys2Proof/Syntax.lean ====
section
/-! DEFINITION. The operations of the core, one constructor per row of spec/opcode_table.json (30_encoding.md R71, R73,
R76, R78; 42_quarter_round.md R120). `rc` is the sequencer's register and no operand of a SEQ operation (R73). -/

namespace Sys2Proof

/-- The 17 rows of the opcode table. -/
inductive Instr where
  /-- BLOCK (R164): the external command, with its operand arrays as R174's "model that takes arrays" gets them. -/
  | block (key counter nonce : List Word)
  /-- HOLD.IDLE (R167). -/
  | holdIdle
  /-- INIT (R161). -/
  | init
  /-- ROUND.A (R140), the column-like round. -/
  | roundA
  /-- ROUND.B (R141), the diagonal-like round. -/
  | roundB
  /-- FINAL (R162), the state adder. -/
  | final
  /-- HOLD.DONE (R168). -/
  | holdDone
  /-- QR.A0 (R123). -/
  | qrA0
  /-- QR.A1 (R124). -/
  | qrA1
  /-- QR.A2 (R125). -/
  | qrA2
  /-- QR.A3 (R126). -/
  | qrA3
  /-- QR.B0 (R127). -/
  | qrB0
  /-- QR.B1 (R128). -/
  | qrB1
  /-- QR.B2 (R129). -/
  | qrB2
  /-- QR.B3 (R130). -/
  | qrB3
  /-- QR (R120): the quarter-round as a pure function of four words; it has no encoding of its own. -/
  | qr (a b c d : Word)
  /-- ROTL (R100): the rotate-left primitive on `v`, by `n`. -/
  | rotl (v : Word) (n : Nat)
  deriving DecidableEq, Repr

end Sys2Proof
end

