-- ==== Sys2Proof/WellFormed.lean ====
section
/-! DEFINITION. Which terms of `Instr` are operations of the core: BLOCK's arrays have the lengths of R8
(R174), and ROTL's amount is in its domain [0, 32] (R79, R100). -/

namespace Sys2Proof

/-- The check on an operation's operands. -/
def Instr.wf : Instr → Bool
  | .block key counter nonce => key.length == 8 && counter.length == 2 && nonce.length == 2
  | .rotl _ n => decide (n ≤ 32)
  | .holdIdle => true
  | .init => true
  | .roundA => true
  | .roundB => true
  | .final => true
  | .holdDone => true
  | .qrA0 => true
  | .qrA1 => true
  | .qrA2 => true
  | .qrA3 => true
  | .qrB0 => true
  | .qrB1 => true
  | .qrB2 => true
  | .qrB3 => true
  | .qr _ _ _ _ => true

end Sys2Proof
end

