-- ==== Sys2Proof/Decode.lean ====
section
/-! DEFINITION. The four formats of 30_encoding.md, their decoder and their encoder. "the place decides the format"
(R81): a decoder is told where its bits come from and never guesses it from the bits. -/

namespace Sys2Proof

/-! ### Fields and words -/

/-- Word `j` of a multi-word port or bundle: bits [32*j+31 : 32*j] (R53, R71). -/
def wordAt {w : Nat} (v : BitVec w) (j : Nat) : Word := v.extractLsb' (32 * j) 32

/-- Words `first`, …, `first + count - 1` of a multi-word port or bundle (R53). -/
def wordsAt {w : Nat} (v : BitVec w) (first count : Nat) : List Word :=
  (List.range count).map fun k => wordAt v (first + k)

/-- Words laid out as R53 says, word 0 in the least significant bits, as one number. -/
def packWords : List Word → Nat
  | [] => 0
  | v :: vs => v.toNat + 2 ^ 32 * packWords vs

/-- `SEQ[7:5] = phase` and `SEQ[4:0] = rc` (R72). -/
def packSeq (phase : BitVec 3) (rc : BitVec 5) : BitVec 8 := phase ++ rc

/-- `SEQ[7:5]` (R72). -/
def seqPhase (w : BitVec 8) : BitVec 3 := w.extractLsb' 5 3

/-- `SEQ[4:0]` (R72). -/
def seqRc (w : BitVec 8) : BitVec 5 := w.extractLsb' 0 5

/-- Phase code 000, IDLE (R25). -/
def phaseIdle : BitVec 3 := 0b000#3

/-- Phase code 001, INIT (R25). -/
def phaseInit : BitVec 3 := 0b001#3

/-- Phase code 010, ROUND (R25). -/
def phaseRound : BitVec 3 := 0b010#3

/-- Phase code 011, FINAL (R25). -/
def phaseFinal : BitVec 3 := 0b011#3

/-- Phase code 100, DONE (R25). -/
def phaseDone : BitVec 3 := 0b100#3

/-! ### The formats -/

/-- The four formats of R70. -/
inductive Format where
  | cmd | seq | qrsel | rotamt
  deriving DecidableEq, Repr

/-- Bits, with the place they come from (R70): the command ports, the sequencer registers, the selector of a
quarter-round application, or the amount of a rotator together with the word at the rotator's input. -/
inductive Bits where
  /-- `start` and the input bundle `IB` of R71. -/
  | cmd (start : BitVec 1) (ib : BitVec 384)
  /-- `{phase, rc}` (R72). -/
  | seq (w : BitVec 8)
  /-- `{id, ic, ib, ia}` (R76). -/
  | qrsel (w : BitVec 16)
  /-- ROTAMT (R78), and the operand word `v`, which ROTAMT's six bits do not carry. -/
  | rotamt (n : BitVec 6) (v : Word)
  deriving DecidableEq, Repr

/-- The format of a place (R70). -/
def Bits.format : Bits → Format
  | .cmd _ _ => .cmd
  | .seq _ => .seq
  | .qrsel _ => .qrsel
  | .rotamt _ _ => .rotamt

/-- Why bits are no operation. -/
inductive Reject where
  /-- `start` = 0 "is not a command" (R71). -/
  | noCommand
  /-- A reserved SEQ value (R75). -/
  | reservedSeq (w : BitVec 8)
  /-- A reserved QRSEL value (R77). -/
  | reservedQrsel (w : BitVec 16)
  /-- A reserved ROTAMT value, 33 to 63 (R79). -/
  | rotAmountOutOfDomain (n : Nat)
  deriving DecidableEq, Repr

/-- The format an operation's encoding has (R70); QR has none (R120). -/
def Instr.format : Instr → Option Format
  | .block _ _ _ => some .cmd
  | .holdIdle => some .seq
  | .init => some .seq
  | .roundA => some .seq
  | .roundB => some .seq
  | .final => some .seq
  | .holdDone => some .seq
  | .qrA0 => some .qrsel
  | .qrA1 => some .qrsel
  | .qrA2 => some .qrsel
  | .qrA3 => some .qrsel
  | .qrB0 => some .qrsel
  | .qrB1 => some .qrsel
  | .qrB2 => some .qrsel
  | .qrB3 => some .qrsel
  | .qr _ _ _ _ => none
  | .rotl _ _ => some .rotamt

/-! ### Decoding -/

/-- CMD (R71): the one command BLOCK, selected by `start` = 1, with key words 0..7 of `IB` words 0..7, counter
words of 8..9, nonce words of 10..11. -/
def decodeCmd (start : BitVec 1) (ib : BitVec 384) : Option Instr :=
  if start = 1#1 then some (.block (wordsAt ib 0 8) (wordsAt ib 8 2) (wordsAt ib 10 2)) else none

/-- One row of R73's table. -/
structure SeqRow where
  op : Instr
  mtch : BitVec 8
  mask : BitVec 8
  /-- The condition "rc ≤ 19" of the two ROUND rows. -/
  rcAtMost19 : Bool
  deriving DecidableEq, Repr

/-- The SEQ decode table (R73). -/
def seqTable : List SeqRow :=
  [ ⟨.holdIdle, 0x00#8, 0xE0#8, false⟩
  , ⟨.init,     0x20#8, 0xE0#8, false⟩
  , ⟨.roundA,   0x40#8, 0xE1#8, true⟩
  , ⟨.roundB,   0x41#8, 0xE1#8, true⟩
  , ⟨.final,    0x60#8, 0xE0#8, false⟩
  , ⟨.holdDone, 0x80#8, 0xE0#8, false⟩ ]

/-- `SEQ & mask == match`, and the row's condition holds (R73). -/
def SeqRow.hits (r : SeqRow) (w : BitVec 8) : Bool :=
  w &&& r.mask == r.mtch && (!r.rcAtMost19 || decide ((seqRc w).toNat ≤ 19))

/-- SEQ (R73): "the first row whose `SEQ & mask == match` and whose condition holds wins"; none is reserved (R75). -/
def decodeSeq (w : BitVec 8) : Option Instr := (seqTable.find? (·.hits w)).map (·.op)

/-- The eight admitted QRSEL values (R76). -/
def qrselTable : List (Instr × BitVec 16) :=
  [ (.qrA0, 0xC840#16), (.qrA1, 0xD951#16), (.qrA2, 0xEA62#16), (.qrA3, 0xFB73#16)
  , (.qrB0, 0xFA50#16), (.qrB1, 0xCB61#16), (.qrB2, 0xD872#16), (.qrB3, 0xE943#16) ]

/-- QRSEL (R76, R77): the operation of an admitted value, none for every other value. -/
def decodeQrsel (w : BitVec 16) : Option Instr := (qrselTable.find? (·.2 == w)).map (·.1)

/-- ROTAMT (R78, R79): amounts 0..32 are legal, 33..63 reserved. -/
def decodeRotamt (n : BitVec 6) (v : Word) : Option Instr := if n.toNat ≤ 32 then some (.rotl v n.toNat) else none

/-- The indices in X of the words in the roles a, b, c and d (R76). -/
structure Quad where
  ia : Fin 16
  ib : Fin 16
  ic : Fin 16
  id : Fin 16
  deriving DecidableEq, Repr

/-- `QRSEL[3:0] = ia`, `QRSEL[7:4] = ib`, `QRSEL[11:8] = ic`, `QRSEL[15:12] = id` (R76). -/
def quadFields (w : BitVec 16) : Quad :=
  { ia := (w.extractLsb' 0 4).toFin, ib := (w.extractLsb' 4 4).toFin,
    ic := (w.extractLsb' 8 4).toFin, id := (w.extractLsb' 12 4).toFin }

/-- The fields of an admitted QRSEL value; none for a reserved one, "even for a value whose four indices are
distinct" (R77). -/
def quadOf (w : BitVec 16) : Option Quad := if (decodeQrsel w).isSome then some (quadFields w) else none

/-- The decoder of all four places, total, rejecting by name. -/
def decode : Bits → Except Reject Instr
  | .cmd start ib => match decodeCmd start ib with
    | some i => .ok i
    | none => .error .noCommand
  | .seq w => match decodeSeq w with
    | some i => .ok i
    | none => .error (.reservedSeq w)
  | .qrsel w => match decodeQrsel w with
    | some i => .ok i
    | none => .error (.reservedQrsel w)
  | .rotamt n v => match decodeRotamt n v with
    | some i => .ok i
    | none => .error (.rotAmountOutOfDomain n.toNat)

/-! ### Encoding -/

/-- The bits of an operation, with `rc` in the SEQ bits that an operation "ignores" and with the round index in those
of a ROUND (R73: ROUND.A has rc even, ROUND.B rc odd, at most 19). QR has "no encoding of its own" (R120), an
ill-formed operation has none. -/
def encodeAt (rc : BitVec 5) : Instr → Option Bits
  | .block key counter nonce =>
    if (Instr.block key counter nonce).wf then
      some (.cmd 1#1 (BitVec.ofNat 384 (packWords (key ++ counter ++ nonce))))
    else none
  | .holdIdle => some (.seq (packSeq phaseIdle rc))
  | .init => some (.seq (packSeq phaseInit rc))
  | .roundA => if rc.toNat ≤ 19 ∧ rc.toNat % 2 = 0 then some (.seq (packSeq phaseRound rc)) else none
  | .roundB => if rc.toNat ≤ 19 ∧ rc.toNat % 2 = 1 then some (.seq (packSeq phaseRound rc)) else none
  | .final => some (.seq (packSeq phaseFinal rc))
  | .holdDone => some (.seq (packSeq phaseDone rc))
  | .qrA0 => some (.qrsel 0xC840#16)
  | .qrA1 => some (.qrsel 0xD951#16)
  | .qrA2 => some (.qrsel 0xEA62#16)
  | .qrA3 => some (.qrsel 0xFB73#16)
  | .qrB0 => some (.qrsel 0xFA50#16)
  | .qrB1 => some (.qrsel 0xCB61#16)
  | .qrB2 => some (.qrsel 0xD872#16)
  | .qrB3 => some (.qrsel 0xE943#16)
  | .qr _ _ _ _ => none
  | .rotl v n => if n ≤ 32 then some (.rotamt (BitVec.ofNat 6 n) v) else none

/-- The `rc` with which the sequencer first reaches an operation (R74): 0 in IDLE, INIT and the first round, 1 in
the second, 19 in FINAL and DONE. An operation of another format has no `rc`, and 0 stands there for nothing. -/
def Instr.firstRc : Instr → BitVec 5
  | .block _ _ _ => 0#5
  | .holdIdle => 0#5
  | .init => 0#5
  | .roundA => 0#5
  | .roundB => 1#5
  | .final => 19#5
  | .holdDone => 19#5
  | .qrA0 => 0#5
  | .qrA1 => 0#5
  | .qrA2 => 0#5
  | .qrA3 => 0#5
  | .qrB0 => 0#5
  | .qrB1 => 0#5
  | .qrB2 => 0#5
  | .qrB3 => 0#5
  | .qr _ _ _ _ => 0#5
  | .rotl _ _ => 0#5

/-- The words of an operation, as the sequencer first reaches it. -/
def encode (i : Instr) : Option Bits := encodeAt i.firstRc i

/-! ### Words of the opcode table -/

/-- The bits, with their place, of a word of spec/opcode_table.json of `nbits` bits. The table's words carry no place,
so the width decides it: 16 bits are a QRSEL, 6 a ROTAMT, 1 the bit `start` alone, 385 (or 392, whole bytes) a CMD with
`start` at bit 0 and IB above it. 8 bits are a SEQ, but for the word 0x01, which is the row BLOCK (`start` = 1, its 384
data bits zero): SEQ 0x01 is HOLD.IDLE with rc = 1, which no run reaches (R74). DESIGN CHOICE, log 7. -/
def tablePlace (nbits w : Nat) : Option Bits :=
  if 2 ^ nbits ≤ w then none
  else if nbits = 16 then some (.qrsel (BitVec.ofNat 16 w))
  else if nbits = 8 then
    if w = 1 then some (.cmd 1#1 0#384) else some (.seq (BitVec.ofNat 8 w))
  else if nbits = 1 then some (.cmd (BitVec.ofNat 1 w) 0#384)
  else if nbits = 6 then some (.rotamt (BitVec.ofNat 6 w) 0#32)
  else if nbits = 385 ∨ nbits = 392 then some (.cmd (BitVec.ofNat 1 w) (BitVec.ofNat 384 (w / 2)))
  else none

/-- The operation the decoder reads from a word of the opcode table. -/
def decodeTableWord (nbits w : Nat) : Option Instr :=
  match tablePlace nbits w with
  | none => none
  | some b => match decode b with
    | .ok i => some i
    | .error _ => none

end Sys2Proof
end

