-- ==== Sys2Proof/Machine/State.lean ====
section
/-! DEFINITION. The state of the core (10_state.md), the reasons a model stops (60_exceptions.md R201) and the state
after reset (R34). The core has no memory (R50), so State has none. -/

namespace Sys2Proof.Machine

/-- A cell or an output port that can hold no value (R33, R38, R170). -/
inductive Reg where
  /-- `S[i]` (R22). -/
  | s (i : Fin 16)
  /-- `X[i]` (R23). -/
  | x (i : Fin 16)
  /-- `OUT[i]` (R24). -/
  | out (i : Fin 16)
  /-- The output port `block_out` (R38). -/
  | blockOut
  deriving DecidableEq, Repr

/-- The faults of R201, and for a cell that holds ⊥ that of R15 and R33. -/
inductive Fault where
  /-- `fault ReservedSeq(SEQ)` (R75): raised by fetching an operation, or by BLOCK, in a reserved SEQ value. Safe: no
  step from reset reaches one (R74). -/
  | reservedSeq (seq : BitVec 8)
  /-- `fault NoValue(r)` (R15, R33, R38): raised by a read of a cell that holds ⊥, or of `block_out` at
  a step at which it carries no value. Safe: hardware may show anything there, the model gives no value. -/
  | noValue (cell : Reg)
  deriving DecidableEq, Repr

/-- The refusals of R201, and the host's own for an operation without a meaning. -/
inductive Refusal where
  /-- The host's: an arm of `exec` that has no meaning yet. Safe. No arm uses it. -/
  | notModelled (mnemonic : String)
  /-- `refuse RotAmountOutOfDomain(n)` (R79, R100): raised by ROTL with n > 32, and by fetching a reserved ROTAMT.
  Safe: the core never supplies one (R103). -/
  | rotAmountOutOfDomain (n : Nat)
  /-- `refuse ReservedQrsel(QRSEL)` (R77, R122): raised by an application, or a fetch, of a QRSEL value that is not one
  of the eight. Safe: the selectors are wired. -/
  | reservedQrsel (w : BitVec 16)
  /-- `refuse MalformedInput` (R174): raised by BLOCK with an operand array of the wrong length. Safe: the ports have
  fixed widths. -/
  | malformedInput
  deriving DecidableEq, Repr

/-- The input ports (R35), less `clk`, which "is not modelled". -/
structure InPorts where
  rst : Bool
  start : Bool
  keyIn : BitVec 256
  counterIn : BitVec 64
  nonceIn : BitVec 64
  deriving DecidableEq, Repr

/-- The model's own: a primitive of the datapath applied directly, by itself and not by the sequencer. The spec
names such use ("direct unit tests of that primitive", R78, R103) and says what a model "given" a selector or an
amount does (R77, R79). DESIGN CHOICE, log 2. -/
inductive Direct where
  /-- A quarter-round application at this QRSEL (R122). -/
  | select (w : BitVec 16)
  /-- A rotation of `v` by this ROTAMT (R100). -/
  | rotate (n : BitVec 6) (v : Word)
  /-- QR on four words (R120). -/
  | quarter (a b c d : Word)
  deriving DecidableEq, Repr

/-- Sixteen cells, each a word or ⊥ (`none`), the spec's marker "no value" (R15, R33). -/
abbrev Cells := Vector (Option Word) 16

/-- Sixteen cells that hold ⊥. -/
def emptyCells : Cells := Vector.replicate 16 none

/-- The state of the core. The names are the spec's. -/
structure State where
  /-- The sequencer's phase register, 3 bits (R25). -/
  phase : BitVec 3
  /-- The round counter, 5 bits (R26). -/
  rc : BitVec 5
  /-- The State register (R22). -/
  S : Cells
  /-- The Working array (R23). -/
  X : Cells
  /-- The Output register (R24). -/
  OUT : Cells
  /-- The values on the input ports at the coming step (R35), which the host sets between steps (R16). -/
  ports : InPorts
  /-- The model's own: a direct application at the coming step (log 2). -/
  direct : Option Direct
  /-- The model's own: what the last directly applied QR or ROTL returned (log 3). -/
  returned : List Word
  deriving DecidableEq, Repr

/-- All input ports at 0: the host drives no command and no reset (log 1). -/
def InPorts.quiet : InPorts := { rst := false, start := false, keyIn := 0#256, counterIn := 0#64, nonceIn := 0#64 }

/-- The state after reset (R34, R230). The three last fields are no registers of the core: their values are DESIGN
CHOICE (logs 1, 2, 3). -/
def State.reset : State :=
  { phase := 0b000#3
    rc := 0#5
    S := emptyCells
    X := emptyCells
    OUT := emptyCells
    ports := InPorts.quiet
    direct := none
    returned := [] }

end Sys2Proof.Machine
end

