-- ==== Sys2Proof/Machine/Flags.lean ====
section
/-! DEFINITION. The status outputs. The core has no flags (10_state.md R30): "The only status bits are `busy` and
`done`", functions of phase (R27), and, where the diagnostic port exists, `dbg_valid` (44_block_and_adder.md R170). -/

namespace Sys2Proof.Machine

/-- "`busy = 1` exactly when phase ∈ {INIT, ROUND, FINAL}" (R27). -/
def State.busy (s : State) : Bool := s.phase == phaseInit || s.phase == phaseRound || s.phase == phaseFinal

/-- "`done = 1` exactly when phase = DONE" (R27). -/
def State.done (s : State) : Bool := s.phase == phaseDone

/-- Phase ∈ {IDLE, DONE}, where the core accepts a command (R164) and rests (R210). -/
def State.resting (s : State) : Bool := s.phase == phaseIdle || s.phase == phaseDone

/-- "`dbg_valid` = 1 exactly while phase = INIT", if the port exists (R170, I7). -/
def State.dbgValid (c : Config) (s : State) : Bool := c.debugDump && s.phase == phaseInit

end Sys2Proof.Machine
end

