-- ==== Sys2Proof/Machine/Operands.lean ====
section
/-! DEFINITION. Operand assembly: the operands of BLOCK on the ports (30_encoding.md R71, 20_memory.md R53), the
constant (10_state.md R21) and the assembly of State from them (44_block_and_adder.md R160). Every field is unsigned
and none is scaled (R80). -/

namespace Sys2Proof.Machine

/-- `CONST[0..3]`, wiring (R21). -/
def constWords : Vector Word 4 := #v[0x61707865#32, 0x3320646e#32, 0x79622d32#32, 0x6b206574#32]

/-- `IB[383:0] = { nonce_in[63:0], counter_in[63:0], key_in[255:0] }` (R71). -/
def inputBundle (p : InPorts) : BitVec 384 := (p.nonceIn ++ p.counterIn ++ p.keyIn : BitVec (64 + 64 + 256))

/-- The key words on the ports (R35, R53). -/
def portKey (p : InPorts) : Vector Word 8 := Vector.ofFn fun j => wordAt p.keyIn j.val

/-- The counter words on the ports (R35, R53). -/
def portCounter (p : InPorts) : Vector Word 2 := Vector.ofFn fun j => wordAt p.counterIn j.val

/-- The nonce words on the ports (R35, R53). -/
def portNonce (p : InPorts) : Vector Word 2 := Vector.ofFn fun j => wordAt p.nonceIn j.val

/-- `S = CONST ‖ key ‖ counter ‖ nonce` (R160). -/
def assemble (key : Vector Word 8) (counter nonce : Vector Word 2) : Block :=
  (constWords ++ key ++ counter ++ nonce : Vector Word (4 + 8 + 2 + 2))

/-- An array of exactly `n` words, or nothing: the length check of R174. -/
def wordsOfLength (n : Nat) (l : List Word) : Option (Vector Word n) :=
  if h : l.length = n then some ⟨l.toArray, by simpa using h⟩ else none

/-- Sixteen cells that hold the words of a block. -/
def valued (b : Block) : Cells := Vector.ofFn fun i => some b[i]

/-- The input ports that carry a BLOCK command with the operands `ib` (R71), `rst` low. -/
def commandPorts (start : Bool) (ib : BitVec 384) : InPorts :=
  { rst := false, start := start, keyIn := ib.extractLsb' 0 256,
    counterIn := ib.extractLsb' 256 64, nonceIn := ib.extractLsb' 320 64 }

end Sys2Proof.Machine
end

