-- ==== Sys2Proof/Machine/Ops.lean ====
section
/-! DEFINITION. The operations every meaning shares: reads of cells (00_scope.md R15), the output ports (10_state.md
R36, R38), acceptance (44_block_and_adder.md R164), the sequencer's advance (R166) and reset (70_reset_and_hazards.md
R230). Taking an exception and returning from one are not among them: "The core has no trap entry, trap return, vector
table or saved state" (60_exceptions.md R204). -/

namespace Sys2Proof.Machine

/-- `add32(x, y) = (x + y) mod 2^32`, no carry kept (R11). -/
def add32 (x y : Word) : Word := x + y

/-- The sequencer's position `SEQ = {phase, rc}` (R29, R72). -/
def State.seq (s : State) : BitVec 8 := packSeq s.phase s.rc

/-! ### Named updates -/

/-- The host sets the input ports, between steps (R16, R20). -/
def State.drive (p : InPorts) (s : State) : State := { s with ports := p }

/-- X takes new cells. -/
def State.setX (x : Cells) (s : State) : State := { s with X := x }

/-- The phase register takes a code. -/
def State.setPhase (p : BitVec 3) (s : State) : State := { s with phase := p }

/-- A directly applied pure function returns words (log 3). -/
def State.setReturned (ws : List Word) (s : State) : State := { s with returned := ws }

/-- A step takes the direct application out of its slot (log 2). -/
def State.clearDirect (s : State) : State := { s with direct := none }

/-! ### Reads of cells -/

/-- A read of a cell: its word, or `fault NoValue(r)` if it holds ⊥ (R15, R33; 93_implementation_defined.md I6). -/
def readCell (name : Fin 16 → Reg) (cells : Cells) (i : Fin 16) : Except Fault Word :=
  match cells[i] with
  | some v => .ok v
  | none => .error (.noValue (name i))

/-- A read of all sixteen cells. If some hold ⊥, the fault names the first of them (log 4). The default 0 is never
taken: past the check, every cell holds a word. -/
def readAll (name : Fin 16 → Reg) (cells : Cells) : Except Fault Block :=
  match (List.finRange 16).find? (fun i => cells[i].isNone) with
  | some i => .error (.noValue (name i))
  | none => .ok (Vector.ofFn fun i => cells[i].getD 0#32)

/-- What a step makes of an update that may read ⊥. -/
def ofExcept (r : Except Fault State) : Host.Outcome State Fault Refusal :=
  match r with
  | .ok s => .next s
  | .error f => .fault f

/-! ### Output ports -/

/-- Sixteen words on a 512-bit port, word i at bits [32*i+31 : 32*i] (R36, R53). -/
def packBlock (b : Block) : BitVec 512 := BitVec.ofNat 512 (packWords b.toList)

/-- The words a host reads on `block_out`: OUT while `done` = 1, else `fault NoValue(block_out)` (R38, R201, I5). A read
changes no state (R58). -/
def State.readBlock (s : State) : Except Fault Block :=
  if s.done then readAll .out s.OUT else .error (.noValue .blockOut)

/-- The 512 bits of `block_out` (R36, R38). -/
def State.readBlockOut (s : State) : Except Fault (BitVec 512) := s.readBlock.map packBlock

/-- The 512 bits of `dbg_state`: S while `dbg_valid` = 1, else no value (R170, I7), which is the answer `none` and no
fault, since R201 lists none for this port (log 10). A cell of S that holds ⊥ faults as in every read (R15). -/
def State.readDbgState (c : Config) (s : State) : Except Fault (Option (BitVec 512)) :=
  if s.dbgValid c then (readAll .s s.S).map fun b => some (packBlock b) else .ok none

/-! ### Transitions -/

/-- `accept(IB)` (R164): S is assembled, OUT holds no value, rc is 0 and the phase is INIT. -/
def accept (key : Vector Word 8) (counter nonce : Vector Word 2) (s : State) : State :=
  { s with S := valued (assemble key counter nonce), OUT := emptyCells, rc := 0#5, phase := phaseInit }

/-- `accept(IB)` with the operands on the ports at this step (R37, R164). -/
def acceptPorts (s : State) : State := accept (portKey s.ports) (portCounter s.ports) (portNonce s.ports) s

/-- `advance()` (R166): "if rc == 19: phase <- FINAL", and rc stays 19, "else: rc <- rc + 1". -/
def advance (s : State) : State :=
  if s.rc = 19#5 then { s with phase := phaseFinal } else { s with rc := s.rc + 1#5 }

/-- `reset()` (R230): phase IDLE, rc 0, every cell ⊥, "and nothing else". The model's own two fields are emptied as
well, so that no direct application outlives a reset (logs 2, 3). -/
def doReset (s : State) : State :=
  { s with phase := phaseIdle, rc := 0#5, S := emptyCells, X := emptyCells, OUT := emptyCells,
           direct := none, returned := [] }

end Sys2Proof.Machine
end

