-- ==== Sys2Proof/Machine/Rotator.lean ====
section
/-! DEFINITION. The rotator, 41_rotator.md. -/

namespace Sys2Proof.Machine

/-- ROTL inside its domain, 0 ≤ n ≤ 32 (R100): amounts 0 and 32 return the value, the others
`((v << n) | (v >> (32 - n)))[31:0]`. No shift by the word width is ever made (I1). -/
def rotl (v : Word) (n : Nat) : Word := if n = 0 ∨ n = 32 then v else v <<< n ||| v >>> (32 - n)

/-- ROTL (R100), applied directly: it returns the rotated word, or refuses an amount outside [0, 32]. -/
def execRotl (v : Word) (n : Nat) (s : State) : Host.Outcome State Fault Refusal :=
  if 32 < n then .refused (.rotAmountOutOfDomain n) else .next (s.setReturned [rotl v n])

end Sys2Proof.Machine
end

