-- ==== Sys2Proof/Machine/QuarterRound.lean ====
section
/-! DEFINITION. The quarter-round ARX operator and its applications to the working array, 42_quarter_round.md. -/

namespace Sys2Proof.Machine

/-- Four words in the roles a, b, c and d. -/
structure Four where
  a : Word
  b : Word
  c : Word
  d : Word
  deriving DecidableEq, Repr

/-- QR (R120): the twelve steps, in exactly this order and with exactly these amounts (R121). Each line sees the lines
before it (R14). -/
def quarterRound (f : Four) : Four :=
  let a := add32 f.a f.b
  let d := f.d ^^^ a
  let d := rotl d 16
  let c := add32 f.c d
  let b := f.b ^^^ c
  let b := rotl b 12
  let a := add32 a b
  let d := d ^^^ a
  let d := rotl d 8
  let c := add32 c d
  let b := b ^^^ c
  let b := rotl b 7
  { a := a, b := b, c := c, d := d }

/-- The four words of a quad, read from sixteen words. -/
def fourAt (q : Quad) (x : Block) : Four := { a := x[q.ia], b := x[q.ib], c := x[q.ic], d := x[q.id] }

/-- A quarter-round application to sixteen words that all hold a value: R122 as a pure function. -/
def quarterAt (x : Block) (q : Quad) : Block :=
  let r := quarterRound (fourAt q x)
  (((x.set q.ia r.a).set q.ib r.b).set q.ic r.c).set q.id r.d

/-- A quarter-round application to the cells of X (R122): all four reads happen before any of the four writes, and the
other twelve cells are unchanged. A ⊥ among the four faults, the first in the order a, b, c, d (R15, log 4). -/
def applyQuad (x : Cells) (q : Quad) : Except Fault Cells := do
  let a ← readCell .x x q.ia
  let b ← readCell .x x q.ib
  let c ← readCell .x x q.ic
  let d ← readCell .x x q.id
  let r := quarterRound { a := a, b := b, c := c, d := d }
  return (((x.set q.ia (some r.a)).set q.ib (some r.b)).set q.ic (some r.c)).set q.id (some r.d)

/-- `apply(QRSEL)` (R122): one application to X, or `refuse ReservedQrsel(QRSEL)` (R77). -/
def applyQrsel (w : BitVec 16) (s : State) : Host.Outcome State Fault Refusal :=
  match quadOf w with
  | none => .refused (.reservedQrsel w)
  | some q => ofExcept ((applyQuad s.X q).map fun x => s.setX x)

/-- QR (R120), applied directly to four words: it returns the four words. -/
def execQr (a b c d : Word) (s : State) : Host.Outcome State Fault Refusal :=
  let r := quarterRound { a := a, b := b, c := c, d := d }
  .next (s.setReturned [r.a, r.b, r.c, r.d])

/-- QR.A0 (R123). -/
def execQrA0 (s : State) : Host.Outcome State Fault Refusal := applyQrsel 0xC840#16 s

/-- QR.A1 (R124). -/
def execQrA1 (s : State) : Host.Outcome State Fault Refusal := applyQrsel 0xD951#16 s

/-- QR.A2 (R125). -/
def execQrA2 (s : State) : Host.Outcome State Fault Refusal := applyQrsel 0xEA62#16 s

/-- QR.A3 (R126). -/
def execQrA3 (s : State) : Host.Outcome State Fault Refusal := applyQrsel 0xFB73#16 s

/-- QR.B0 (R127). -/
def execQrB0 (s : State) : Host.Outcome State Fault Refusal := applyQrsel 0xFA50#16 s

/-- QR.B1 (R128). -/
def execQrB1 (s : State) : Host.Outcome State Fault Refusal := applyQrsel 0xCB61#16 s

/-- QR.B2 (R129). -/
def execQrB2 (s : State) : Host.Outcome State Fault Refusal := applyQrsel 0xD872#16 s

/-- QR.B3 (R130). -/
def execQrB3 (s : State) : Host.Outcome State Fault Refusal := applyQrsel 0xE943#16 s

end Sys2Proof.Machine
end

