-- ==== Sys2Proof/Machine/Rounds.lean ====
section
/-! DEFINITION. The rounds and their schedule, 43_round_mixer.md. -/

namespace Sys2Proof.Machine

/-- The quads of ROUND.A, i = 0..3: `(q0[i], q1[i], q2[i], q3[i])`, from the QRSEL values of R76 (R140, R146). -/
def quadsA : List Quad :=
  [quadFields 0xC840#16, quadFields 0xD951#16, quadFields 0xEA62#16, quadFields 0xFB73#16]

/-- The quads of ROUND.B, i = 0..3: `(q0[i], q1[(i+1) mod 4], q2[(i+2) mod 4], q3[(i+3) mod 4])`, from the QRSEL values
of R76 (R141, R146). -/
def quadsB : List Quad :=
  [quadFields 0xFA50#16, quadFields 0xCB61#16, quadFields 0xD872#16, quadFields 0xE943#16]

/-! ### On the cells of X -/

/-- A round on the cells of X: its four applications in order. -/
def roundCells (qs : List Quad) (x : Cells) : Except Fault Cells := qs.foldlM applyQuad x

/-- ROUND.A (R140) and then advance() (R166). -/
def execRoundA (s : State) : Host.Outcome State Fault Refusal :=
  ofExcept ((roundCells quadsA s.X).map fun x => advance (s.setX x))

/-- ROUND.B (R141) and then advance() (R166). -/
def execRoundB (s : State) : Host.Outcome State Fault Refusal :=
  ofExcept ((roundCells quadsB s.X).map fun x => advance (s.setX x))

/-! ### As pure functions of sixteen words -/

/-- A round as a pure function of sixteen words. -/
def roundWords (qs : List Quad) (x : Block) : Block := qs.foldl quarterAt x

/-- ROUND.A as a pure function (R140). -/
def roundAWords (x : Block) : Block := roundWords quadsA x

/-- ROUND.B as a pure function (R141). -/
def roundBWords (x : Block) : Block := roundWords quadsB x

/-- DROUND (R143): ROUND.A and then ROUND.B, "ROUND.B reads the X that ROUND.A wrote". -/
def dround (x : Block) : Block := roundBWords (roundAWords x)

/-- Round `r` of the schedule: type A if r is even, B if odd (R144). -/
def roundAt (r : Nat) (x : Block) : Block := if r % 2 = 0 then roundAWords x else roundBWords x

/-- The first `n` rounds of the schedule (R144). -/
def mixRounds : Nat → Block → Block
  | 0, x => x
  | n + 1, x => roundAt n (mixRounds n x)

/-- MIX20 (R144, R147): twenty rounds, "80 quarter-round applications". -/
def mix20 (x : Block) : Block := mixRounds 20 x

/-! ### The lane view (R145) -/

/-- Word `i` of quarter `k`: `q_k[i] = X[4*k + i]` (R23). -/
def quarterWord (x : Block) (k i : Fin 4) : Word := x[4 * k.val + i.val]'(by omega)

/-- Sixteen words given by quarter and index (R23). -/
def ofQuarters (f : Fin 4 → Fin 4 → Word) : Block :=
  Vector.ofFn fun j => f ⟨j.val / 4, by omega⟩ ⟨j.val % 4, by omega⟩

/-- The word of a role: quarter 0 plays a, 1 plays b, 2 plays c, 3 plays d. -/
def Four.role (f : Four) (k : Fin 4) : Word :=
  match k with
  | 0 => f.a
  | 1 => f.b
  | 2 => f.c
  | 3 => f.d

/-- Lane `i`: the four words `(q0[i], q1[i], q2[i], q3[i])`. -/
def lane (x : Block) (i : Fin 4) : Four :=
  { a := quarterWord x 0 i, b := quarterWord x 1 i, c := quarterWord x 2 i, d := quarterWord x 3 i }

/-- QR on each lane independently: ROUND.A in the lane view. -/
def laneWise (x : Block) : Block := ofQuarters fun k i => (quarterRound (lane x i)).role k

/-- Quarter `k` rotated down by `k` words: `q_k'[i] = q_k[(i+k) mod 4]`. -/
def rotateQuartersDown (x : Block) : Block := ofQuarters fun k i => quarterWord x k (i + k)

/-- Each quarter rotated back: `q_k[(i+k) mod 4] = q_k'[i]`. -/
def rotateQuartersUp (x : Block) : Block := ofQuarters fun k i => quarterWord x k (i - k)

/-- ROUND.B in the lane view: rotate the quarters down, QR lane-wise, rotate them back. -/
def laneRoundB (x : Block) : Block := rotateQuartersUp (laneWise (rotateQuartersDown x))

end Sys2Proof.Machine
end

