-- ==== Sys2Proof/Machine/Block.lean ====
section
/-! DEFINITION. State assembly, the working copy, the state adder and BLOCK, 44_block_and_adder.md. -/

namespace Sys2Proof.Machine

/-- The state adder on sixteen words: `add32(X[i], S[i])` for i = 0..15 (R162). -/
def addWords (x b : Block) : Block := Vector.ofFn fun i => add32 x[i] b[i]

/-- BlockCore on an assembled State (R163). -/
def blockOf (b : Block) : Block := addWords (mix20 b) b

/-- BlockCore (R163), "the whole block transform as a pure function". -/
def blockCore (key : Vector Word 8) (counter nonce : Vector Word 2) : Block :=
  blockOf (assemble key counter nonce)

/-- BlockCore for a caller with arrays: "refuses arrays of the wrong length with `refuse MalformedInput`" (R174). -/
def blockCoreArrays (key counter nonce : List Word) : Except Refusal Block :=
  match wordsOfLength 8 key, wordsOfLength 2 counter, wordsOfLength 2 nonce with
  | some k, some c, some n => .ok (blockCore k c n)
  | _, _, _ => .error .malformedInput

/-- INIT (R161): X becomes a copy of S and the phase ROUND. -/
def execInit (s : State) : Host.Outcome State Fault Refusal :=
  ofExcept ((readAll .s s.S).map fun b => (s.setX (valued b)).setPhase phaseRound)

/-- FINAL (R162): OUT becomes the word sums of X and S, and the phase DONE. -/
def execFinal (s : State) : Host.Outcome State Fault Refusal :=
  ofExcept do
    let x ← readAll .x s.X
    let b ← readAll .s s.S
    return { s with OUT := valued (addWords x b), phase := phaseDone }

/-- BLOCK (R164): the command's own effect. "The core accepts when `rst` = 0, `start` = 1 and phase ∈ {IDLE, DONE}";
in INIT, ROUND and FINAL, and at a step with `rst` = 1, the command has no effect (R165, R203, log 5); a model in a
reserved SEQ value faults (R75, log 5). Arrays of the wrong length are refused first (R174, log 13). -/
def execBlock (key counter nonce : List Word) (s : State) : Host.Outcome State Fault Refusal :=
  match wordsOfLength 8 key, wordsOfLength 2 counter, wordsOfLength 2 nonce with
  | some k, some c, some n =>
    if s.ports.rst then .next s
    else if s.resting then .next (accept k c n s)
    else if (decodeSeq s.seq).isNone then .fault (.reservedSeq s.seq)
    else .next s
  | _, _, _ => .refused .malformedInput

end Sys2Proof.Machine
end

