-- ==== Sys2Proof/Machine/Sequencer.lean ====
section
/-! DEFINITION. The rest operations of the sequencer, 44_block_and_adder.md R167 and R168. -/

namespace Sys2Proof.Machine

/-- "`if Port(start) == 1: accept(IB) else: no state changes`", the pseudocode R167 and R168 share. -/
def hold (s : State) : Host.Outcome State Fault Refusal := .next (if s.ports.start then acceptPorts s else s)

/-- HOLD.IDLE (R167). -/
def execHoldIdle (s : State) : Host.Outcome State Fault Refusal := hold s

/-- HOLD.DONE (R168). -/
def execHoldDone (s : State) : Host.Outcome State Fault Refusal := hold s

end Sys2Proof.Machine
end

