-- ==== Sys2Proof/Machine/Dispatch.lean ====
section
/-! DEFINITION. One arm per operation. -/

namespace Sys2Proof.Machine

def exec (i : Instr) (s : State) : Host.Outcome State Fault Refusal :=
  match i with
  | .block key counter nonce => Sys2Proof.Machine.execBlock key counter nonce s
  | .holdIdle => Sys2Proof.Machine.execHoldIdle s
  | .init => Sys2Proof.Machine.execInit s
  | .roundA => Sys2Proof.Machine.execRoundA s
  | .roundB => Sys2Proof.Machine.execRoundB s
  | .final => Sys2Proof.Machine.execFinal s
  | .holdDone => Sys2Proof.Machine.execHoldDone s
  | .qrA0 => Sys2Proof.Machine.execQrA0 s
  | .qrA1 => Sys2Proof.Machine.execQrA1 s
  | .qrA2 => Sys2Proof.Machine.execQrA2 s
  | .qrA3 => Sys2Proof.Machine.execQrA3 s
  | .qrB0 => Sys2Proof.Machine.execQrB0 s
  | .qrB1 => Sys2Proof.Machine.execQrB1 s
  | .qrB2 => Sys2Proof.Machine.execQrB2 s
  | .qrB3 => Sys2Proof.Machine.execQrB3 s
  | .qr a b c d => Sys2Proof.Machine.execQr a b c d s
  | .rotl v n => Sys2Proof.Machine.execRotl v n s

end Sys2Proof.Machine
end

