-- ==== Sys2Proof/Machine/Fetch.lean ====
section
/-! DEFINITION. Where the operation of a step comes from. The core fetches no instructions (10_state.md R29, 20_memory.md
R62): the sequencer decodes SEQ (44_block_and_adder.md R166). -/

namespace Sys2Proof.Machine

/-- The operation of this step: `decode(SEQ)`, a reserved value faulting (R75, R166); or, where a primitive is to be
applied directly (log 2), that application, with a reserved selector or amount refused (R77, R79). DESIGN CHOICE, log
2: a direct application is no step of R166 and does not decode SEQ, so it runs in a reserved SEQ state too and leaves SEQ
there; a step with neither a reset nor an application faults `ReservedSeq` there (R75, R201). -/
def fetch (s : State) : Host.Outcome Instr Fault Refusal :=
  match s.direct with
  | none => match decodeSeq s.seq with
    | some i => .next i
    | none => .fault (.reservedSeq s.seq)
  | some (.select w) => match decodeQrsel w with
    | some i => .next i
    | none => .refused (.reservedQrsel w)
  | some (.rotate n v) => match decodeRotamt n v with
    | some i => .next i
    | none => .refused (.rotAmountOutOfDomain n.toNat)
  | some (.quarter a b c d) => .next (.qr a b c d)

/-- Cells in which each ⊥ gives way to the cell of another sixteen. -/
def fillFrom (cells source : Cells) : Cells := Vector.ofFn fun i => cells[i].or source[i]

/-- S where words are to be placed to be read: a cell that holds ⊥ takes its word of the block that an acceptance of the
operands on the ports assembles (R160, R164; DESIGN CHOICE, log 8). -/
def State.heldS (s : State) : Cells :=
  fillFrom s.S (valued (assemble (portKey s.ports) (portCounter s.ports) (portNonce s.ports)))

/-- X where words are to be placed to be read: a cell that holds ⊥ takes its word of the copy of S (R161; DESIGN CHOICE,
log 8). -/
def State.heldX (s : State) : Cells := fillFrom s.X s.heldS

/-- The state whose next step runs the operation of `b`: bits are put at their own place (R70), `rst` low. A CMD is
listened to only at rest (R164), so a core that is not at rest is put in IDLE for it. In INIT, ROUND and FINAL, and for an
application, the cells that the operation finds words in at every step of a run (R33, R161) are given words where they
hold ⊥ (DESIGN CHOICE, log 8). -/
def placeBits (b : Bits) (s : State) : State :=
  match b with
  | .cmd start ib =>
    { s with phase := if s.resting then s.phase else phaseIdle
             ports := commandPorts (start == 1#1) ib
             direct := none }
  | .seq w =>
    { s with phase := seqPhase w
             rc := seqRc w
             S := if seqPhase w ∈ [phaseInit, phaseRound, phaseFinal] then s.heldS else s.S
             X := if seqPhase w ∈ [phaseRound, phaseFinal] then s.heldX else s.X
             ports := { s.ports with rst := false }
             direct := none }
  | .qrsel w =>
    { s with S := s.heldS, X := s.heldX, ports := { s.ports with rst := false }, direct := some (.select w) }
  | .rotamt n v => { s with ports := { s.ports with rst := false }, direct := some (.rotate n v) }

end Sys2Proof.Machine
end

