-- ==== Sys2Proof/Machine/Step.lean ====
section
/-! DEFINITION. One step of the core, the reference sequencer's `step()` (44_block_and_adder.md R166), and the placing
of an opcode-table word where a step finds it. -/

namespace Sys2Proof.Machine

/-- `step()` (R166): reset wins (R203); otherwise the operation of the step runs, with the direct slot emptied. -/
def step (s : State) : Host.Outcome State Fault Refusal :=
  if s.ports.rst then .next (doReset s)
  else match fetch s with
    | .next i => exec i s.clearDirect
    | .fault f => .fault f
    | .refused r => .refused r

/-- The word `w` of the opcode table placed where the next step finds it (logs 7, 8). -/
def State.withFetchWord (s : State) (nbits w : Nat) : State :=
  match tablePlace nbits w with
  | some b => placeBits b s
  | none => s

end Sys2Proof.Machine
end

