-- ==== Sys2Proof/Machine/Platform.lean ====
section
/-! DEFINITION. Several cores on one platform (60_exceptions.md R208, 00_scope.md R9 N_INSTANCES): independent agents that
share nothing. How many there are and what drives them is the platform's. -/

namespace Sys2Proof.Machine

/-- The cores of a platform. -/
structure Platform where
  cores : List State
  deriving DecidableEq, Repr

/-- A platform has N_INSTANCES cores (R9). -/
def Platform.wf (c : Config) (P : Platform) : Bool := P.cores.length == c.nInstances

/-- Core `k` takes one step under the ports the host drives on it; the platform stops if that core stops. -/
def Platform.stepCore (P : Platform) (k : Fin P.cores.length) (p : InPorts) : Host.Outcome Platform Fault Refusal :=
  match step ((P.cores[k]).drive p) with
  | .next s => .next { cores := P.cores.set k s }
  | .fault f => .fault f
  | .refused r => .refused r

end Sys2Proof.Machine
end

