-- ==== Sys2Proof/Machine/HostAgent.lean ====
section
/-! DEFINITION. The host, the second agent (10_state.md R20): it sets the input ports between steps and reads the output
ports. Its actions are those of 30_encoding.md R83. -/

namespace Sys2Proof.Machine

/-- A run of the core in which the host drives the given ports, one entry a step, and stops at the first stop. -/
def runPorts : List InPorts → State → Host.Outcome State Fault Refusal
  | [], s => .next s
  | p :: ps, s =>
    match step (s.drive p) with
    | .next s' => runPorts ps s'
    | .fault f => .fault f
    | .refused r => .refused r

/-- The host actions of R83, and `drive`, which sets all input ports for one step (as program P5 does). -/
inductive HostAction where
  /-- `RESET`: `rst` for one step. -/
  | reset
  /-- `START k0,…,k7 ; c0,c1 ; n0,n1`: the operand ports and `start` for one step. -/
  | start (key : Vector Word 8) (counter nonce : Vector Word 2)
  /-- `STEP m`: m steps with `start` = 0 and `rst` = 0. -/
  | steps (m : Nat)
  /-- `WAIT`: steps until `done` = 1. -/
  | wait
  /-- `READ`: one step with `start` = 0 and `rst` = 0, and a read of `block_out` at that step. -/
  | read
  /-- All input ports as given, for one step. -/
  | drive (p : InPorts)
  deriving DecidableEq, Repr

/-- `start` = 0 and `rst` = 0; the data ports, which have no effect then (R37), keep their values. -/
def InPorts.released (p : InPorts) : InPorts := { p with rst := false, start := false }

/-- Words on a port, word j at bits [32*j+31 : 32*j] (R53). -/
def packPort {n : Nat} (w : Nat) (ws : Vector Word n) : BitVec w := BitVec.ofNat w (packWords ws.toList)

/-- The input ports at a step of an action (R83). -/
def HostAction.ports (a : HostAction) (old : InPorts) : InPorts :=
  match a with
  | .reset => { old with rst := true, start := false }
  | .start key counter nonce =>
    { rst := false, start := true, keyIn := packPort 256 key, counterIn := packPort 64 counter,
      nonceIn := packPort 64 nonce }
  | .steps _ => old.released
  | .wait => old.released
  | .read => old.released
  | .drive p => p

/-- The action of the coming step and the script after it: `STEP 0` and a `WAIT` whose `done` is 1 take no step
(log 15). -/
def nextAction (done : Bool) : List HostAction → Option (HostAction × List HostAction)
  | [] => none
  | .steps 0 :: rest => nextAction done rest
  | .steps (m + 1) :: rest => some (.steps (m + 1), .steps m :: rest)
  | .wait :: rest => if done then nextAction done rest else some (.wait, .wait :: rest)
  | .reset :: rest => some (.reset, rest)
  | .start key counter nonce :: rest => some (.start key counter nonce, rest)
  | .read :: rest => some (.read, rest)
  | .drive p :: rest => some (.drive p, rest)

/-- The core with a host that follows a script, and the blocks the host has read, oldest first. -/
structure Bench where
  core : State
  script : List HostAction
  seen : List Block
  deriving DecidableEq, Repr

/-- One step of the core under the given ports, the host's part as given. -/
def Bench.stepWith (b : Bench) (p : InPorts) (rest : List HostAction) (seen : List Block) :
    Host.Outcome Bench Fault Refusal :=
  match step (b.core.drive p) with
  | .next s => .next { core := s, script := rest, seen := seen }
  | .fault f => .fault f
  | .refused r => .refused r

/-- One step of both agents (R83): `READ` reads `block_out` at its step, and "While `done` = 0 the read faults". A host
whose script is at its end releases `start` and `rst`. -/
def Bench.step (b : Bench) : Host.Outcome Bench Fault Refusal :=
  match nextAction b.core.done b.script with
  | none => b.stepWith b.core.ports.released [] b.seen
  | some (a, rest) =>
    if a = .read then
      match b.core.readBlock with
      | .ok v => b.stepWith (a.ports b.core.ports) rest (b.seen ++ [v])
      | .error f => .fault f
    else b.stepWith (a.ports b.core.ports) rest b.seen

/-- `n` steps of both agents. -/
def Bench.run : Nat → Bench → Host.Outcome Bench Fault Refusal
  | 0, b => .next b
  | n + 1, b =>
    match b.step with
    | .next b' => Bench.run n b'
    | .fault f => .fault f
    | .refused r => .refused r

end Sys2Proof.Machine
end

