-- ==== Sys2Proof/Machine/Transaction.lean ====
section
/-! DEFINITION. The port-level transaction (44_block_and_adder.md R164, R165, R171; 92_eei_decisions.md D1, D6), for any
LATENCY (00_scope.md R9): what every implementation, whatever its internal schedule, shows at the ports. -/

namespace Sys2Proof.Machine

/-- What the ports can tell of a core: at rest with no result, busy with a block for so many more steps, or done. -/
inductive Txn where
  | idle
  /-- After `left` more steps `done` reads 1, with this result. -/
  | busy (left : Nat) (result : Block)
  | done (result : Block)
  deriving DecidableEq, Repr

/-- The port `busy` (R27). -/
def Txn.isBusy : Txn → Bool
  | .idle => false
  | .busy _ _ => true
  | .done _ => false

/-- The port `done` (R27). -/
def Txn.isDone : Txn → Bool
  | .idle => false
  | .busy _ _ => false
  | .done _ => true

/-- A read of `block_out` (R38). -/
def Txn.readBlock : Txn → Except Fault Block
  | .idle => .error (.noValue .blockOut)
  | .busy _ _ => .error (.noValue .blockOut)
  | .done result => .ok result

/-- The block with this result after `left` more steps, done when none is left. -/
def Txn.pending (left : Nat) (result : Block) : Txn := if left = 0 then .done result else .busy left result

/-- A command on the ports is accepted (R164): the acceptance step is the first of the LATENCY steps (R171). -/
def Txn.accept (latency : Nat) (p : InPorts) : Txn :=
  .pending (latency - 1) (blockCore (portKey p) (portCounter p) (portNonce p))

/-- One step at the ports: reset wins (R230, R203), a command is accepted at rest only (R164), a busy core counts on
whatever the ports show (R165), and a result is held (R165). -/
def Txn.step (latency : Nat) (p : InPorts) (t : Txn) : Txn :=
  if p.rst then .idle
  else match t with
    | .idle => if p.start then .accept latency p else .idle
    | .busy left result => .pending (left - 1) result
    | .done result => if p.start then .accept latency p else .done result

end Sys2Proof.Machine
end

