-- ==== Sys2Proof/Safety.lean ====
section
/-! DEFINITION. What counts as a safe run, in the terms the claims use: the states a run from reset reaches, the
invariant they meet, and what a state shows at the ports. -/

namespace Sys2Proof.Machine

/-- The step went on. -/
def isNext {σ φ ρ : Type} : Host.Outcome σ φ ρ → Bool
  | .next _ => true
  | .fault _ => false
  | .refused _ => false

/-- The states a run from reset reaches, whatever the host drives on the ports (R20, R234). -/
inductive Reachable : State → Prop
  | reset : Reachable State.reset
  | step {s s' : State} (p : InPorts) : Reachable s → Machine.step (s.drive p) = .next s' → Reachable s'

/-- The SEQ values of R74: 0x00, 0x20, 0x40 to 0x53, 0x73 and 0x93. -/
def reachableSeq (w : BitVec 8) : Bool :=
  w == 0x00#8 || w == 0x20#8 || (0x40#8 ≤ w && w ≤ 0x53#8) || w == 0x73#8 || w == 0x93#8

/-- A State as R160 assembles it: its first four words are CONST (R22). -/
def hasConst (b : Block) : Prop := ∀ i : Fin 4, b[i.val] = constWords[i]

/-- What the sequencer's registers hold in each phase (R26, R33, R34, R161, R162, R171), and that no direct application
is pending. `b` is the State of the block in flight or last computed. -/
structure InFlight (s : State) (b : Block) : Prop where
  const : hasConst b
  state : s.S = valued b
  phases :
    (s.phase = phaseInit ∧ s.rc = 0#5 ∧ s.OUT = emptyCells) ∨
    (s.phase = phaseRound ∧ s.rc.toNat ≤ 19 ∧ s.X = valued (mixRounds s.rc.toNat b) ∧ s.OUT = emptyCells) ∨
    (s.phase = phaseFinal ∧ s.rc = 19#5 ∧ s.X = valued (mix20 b) ∧ s.OUT = emptyCells) ∨
    (s.phase = phaseDone ∧ s.rc = 19#5 ∧ s.X = valued (mix20 b) ∧ s.OUT = valued (blockOf b))

/-- A core at rest after reset: every cell holds ⊥ (R34, R167). -/
structure AtIdle (s : State) : Prop where
  phase : s.phase = phaseIdle
  rc : s.rc = 0#5
  state : s.S = emptyCells
  working : s.X = emptyCells
  out : s.OUT = emptyCells

/-- The invariant of the reference sequencer. -/
def Inv (s : State) : Prop := s.direct = none ∧ (AtIdle s ∨ ∃ b, InFlight s b)

/-- The state `s` shows at its ports what the transaction `t` shows: `left` is 22 in INIT, 21 - rc in ROUND and 1 in
FINAL (R171). -/
def Shows (s : State) (t : Txn) : Prop :=
  s.direct = none ∧
  match t with
  | .idle => AtIdle s
  | .busy left result => ∃ b, InFlight s b ∧ result = blockOf b ∧
      ((s.phase = phaseInit ∧ left = 22) ∨ (s.phase = phaseRound ∧ left = 21 - s.rc.toNat) ∨
        (s.phase = phaseFinal ∧ left = 1))
  | .done result => ∃ b, InFlight s b ∧ result = blockOf b ∧ s.phase = phaseDone

end Sys2Proof.Machine
end

