-- ==== Sys2Proof/Certificates/Slice0/Obligations.lean ====
section
/-! DEFINITION. The statements about the core, each a numbered rule of spec/ or derived from its sections. -/

open Sys2Proof Sys2Proof.Machine

/-! ### Encodings -/

/-- R72, R73: the operation of every SEQ value, by phase and rc; R73's table read row by row. -/
def Obligations.SeqDecodesByPhaseAndRound : Prop :=
  ∀ (phase : BitVec 3) (rc : BitVec 5), seqPhase (packSeq phase rc) = phase ∧ seqRc (packSeq phase rc) = rc ∧
    decodeSeq (packSeq phase rc) =
      if phase = 0b000#3 then some .holdIdle
      else if phase = 0b001#3 then some .init
      else if phase = 0b010#3 then
        if 19 < rc.toNat then none else if rc.getLsbD 0 then some .roundB else some .roundA
      else if phase = 0b011#3 then some .final
      else if phase = 0b100#3 then some .holdDone
      else none

/-- R76: the eight admitted QRSEL values, each with its operation and its index quadruple. -/
def Obligations.QrselTableDecodes : Prop :=
  ∀ e ∈ ([(.qrA0, 0xC840#16, ⟨0, 4, 8, 12⟩), (.qrA1, 0xD951#16, ⟨1, 5, 9, 13⟩), (.qrA2, 0xEA62#16, ⟨2, 6, 10, 14⟩),
      (.qrA3, 0xFB73#16, ⟨3, 7, 11, 15⟩), (.qrB0, 0xFA50#16, ⟨0, 5, 10, 15⟩), (.qrB1, 0xCB61#16, ⟨1, 6, 11, 12⟩),
      (.qrB2, 0xD872#16, ⟨2, 7, 8, 13⟩), (.qrB3, 0xE943#16, ⟨3, 4, 9, 14⟩)] : List (Instr × BitVec 16 × Quad)),
    decode (.qrsel e.2.1) = .ok e.1 ∧ quadOf e.2.1 = some e.2.2

/-- Words of every format written out from the spec's encodings decode to what they stand for. A sanity statement. -/
def Obligations.SpecWordsDecode : Prop :=
  decode (.seq 0b00000000#8) = .ok .holdIdle ∧ decode (.seq 0b00100000#8) = .ok .init ∧
  decode (.seq 0b01010010#8) = .ok .roundA ∧ decode (.seq 0b01010011#8) = .ok .roundB ∧
  decode (.seq 0b01110011#8) = .ok .final ∧ decode (.seq 0b10010011#8) = .ok .holdDone ∧
  decode (.qrsel 0b1110101001100010#16) = .ok .qrA2 ∧ decode (.qrsel 0b1100101101100001#16) = .ok .qrB1 ∧
  decode (.rotamt 0b001100#6 0x12345678#32) = .ok (.rotl 0x12345678#32 12) ∧
  decode (.cmd 1#1 (0x0000004a#32 ++ 0x00000009#32 ++ 0x00000000#32 ++ 0x00000001#32 ++ 0x1f1e1d1c#32 ++ 0x1b1a1918#32 ++
      0x17161514#32 ++ 0x13121110#32 ++ 0x0f0e0d0c#32 ++ 0x0b0a0908#32 ++ 0x07060504#32 ++ 0x03020100#32)) =
    .ok (.block [0x03020100#32, 0x07060504#32, 0x0b0a0908#32, 0x0f0e0d0c#32, 0x13121110#32, 0x17161514#32, 0x1b1a1918#32,
      0x1f1e1d1c#32] [0x00000001#32, 0x00000000#32] [0x00000009#32, 0x0000004a#32])

/-- Decode of encode is the operation, at every value the encoding admits, the `rc` bits a SEQ operation ignores
among them; and every well-formed operation but QR, which has no encoding of its own (R120), is encoded. -/
def Obligations.DecodeOfEncode : Prop :=
  (∀ (rc : BitVec 5) (i : Instr) (b : Bits), encodeAt rc i = some b → decode b = .ok i) ∧
  (∀ i : Instr, i.wf = true → (∀ a b c d, i ≠ .qr a b c d) → ∃ b, encode i = some b)

/-- The other direction: what the decoder accepts is well-formed and its bits are an encoding of it, no bit lost. -/
def Obligations.EncodeOfDecode : Prop :=
  ∀ (b : Bits) (i : Instr), decode b = .ok i → i.wf = true ∧ ∃ rc, encodeAt rc i = some b

/-- R71: the input bundle, its fields on the ports, `start` = 1 as the only command and `start` = 0 as none, and
`S[4+j] = IB word j`. -/
def Obligations.CommandBundle : Prop :=
  ∀ p : InPorts,
    inputBundle p = p.nonceIn ++ p.counterIn ++ p.keyIn ∧
    (∀ j : Fin 8, wordAt (inputBundle p) j.val = p.keyIn.extractLsb' (32 * j.val) 32) ∧
    (∀ j : Fin 2, (inputBundle p).extractLsb' (256 + 32 * j.val) 32 = p.counterIn.extractLsb' (32 * j.val) 32) ∧
    (∀ j : Fin 2, (inputBundle p).extractLsb' (320 + 32 * j.val) 32 = p.nonceIn.extractLsb' (32 * j.val) 32) ∧
    (∃ key counter nonce, decode (.cmd 1#1 (inputBundle p)) = .ok (.block key counter nonce) ∧
      key ++ counter ++ nonce = (List.range 12).map (fun j => (inputBundle p).extractLsb' (32 * j) 32) ∧
      key.length = 8 ∧ counter.length = 2 ∧ nonce.length = 2) ∧
    decode (.cmd 0#1 (inputBundle p)) = .error .noCommand ∧
    (∀ j : Fin 12, (assemble (portKey p) (portCounter p) (portNonce p))[4 + j.val] =
      (inputBundle p).extractLsb' (32 * j.val) 32)

/-- R75: a reserved SEQ value is no operation and faults, no other value is reserved, and no step from reset reaches
one. -/
def Obligations.ReservedSeqFaults : Prop :=
  (∀ s : State, s.ports.rst = false → s.direct = none →
    ((0xA0#8 ≤ s.seq ∨ (0x54#8 ≤ s.seq ∧ s.seq ≤ 0x5F#8)) →
      decode (.seq s.seq) = .error (.reservedSeq s.seq) ∧ step s = .fault (.reservedSeq s.seq)) ∧
    (¬(0xA0#8 ≤ s.seq ∨ (0x54#8 ≤ s.seq ∧ s.seq ≤ 0x5F#8)) → ∃ i, decode (.seq s.seq) = .ok i)) ∧
  ∀ s : State, Reachable s → ¬(0xA0#8 ≤ s.seq ∨ (0x54#8 ≤ s.seq ∧ s.seq ≤ 0x5F#8))

/-- R77: every other QRSEL value is refused, by the decoder and by an application, and the selectors of the rounds are
the eight alone. -/
def Obligations.ReservedQrselRefused : Prop :=
  (∀ (w : BitVec 16) (s : State),
    w ∉ [0xC840#16, 0xD951#16, 0xEA62#16, 0xFB73#16, 0xFA50#16, 0xCB61#16, 0xD872#16, 0xE943#16] →
      decode (.qrsel w) = .error (.reservedQrsel w) ∧ applyQrsel w s = .refused (.reservedQrsel w)) ∧
  ∀ q ∈ quadsA ++ quadsB,
    ∃ w ∈ [0xC840#16, 0xD951#16, 0xEA62#16, 0xFB73#16, 0xFA50#16, 0xCB61#16, 0xD872#16, 0xE943#16], quadOf w = some q

/-- R79: amounts 33 to 63 are reserved and refused. -/
def Obligations.ReservedAmountRefused : Prop :=
  ∀ (n : BitVec 6) (v : Word) (s : State), 33 ≤ n.toNat →
    decode (.rotamt n v) = .error (.rotAmountOutOfDomain n.toNat) ∧
    exec (.rotl v n.toNat) s = .refused (.rotAmountOutOfDomain n.toNat)

/-! ### The rotator -/

/-- R100: ROTL's result, its refusal outside [0, 32] and its encoding; nothing else changes. (Where a direct
application's result stands, `returned`, is the model's, log 3, and that the amount is a natural number of any size is
the model's, log 14.) -/
def Obligations.RotlResult : Prop :=
  ∀ (v : Word) (n : Nat) (s : State),
    (n = 0 ∨ n = 32 → exec (.rotl v n) s = .next { s with returned := [v] }) ∧
    (0 < n → n < 32 → exec (.rotl v n) s = .next { s with returned := [v <<< n ||| v >>> (32 - n)] }) ∧
    (32 < n → exec (.rotl v n) s = .refused (.rotAmountOutOfDomain n)) ∧
    (n ≤ 32 → decode (.rotamt (BitVec.ofNat 6 n) v) = .ok (.rotl v n))

/-- R101. -/
def Obligations.RotlIdentity : Prop := ∀ v : Word, rotl v 0 = v ∧ rotl v 32 = v

/-- R102. -/
def Obligations.RotlComposition : Prop := ∀ (v : Word) (n : Nat), 0 < n → n < 32 → rotl (rotl v n) (32 - n) = v

/-- The bitwise form the spec derives (R104): bit k of the result is bit (k - n) mod 32 of the value, and the rotation
is by n mod 32. -/
def Obligations.RotlBitwise : Prop :=
  ∀ (v : Word) (n : Nat), n ≤ 32 →
    rotl v n = v.rotateLeft (n % 32) ∧ ∀ k < 32, (rotl v n).getLsbD k = v.getLsbD ((k + 32 - n) % 32)

/-! ### The quarter-round -/

/-- R120: QR's twelve steps in order with the amounts 16, 12, 8 and 7, no encoding of its own; nothing but the
returned words changes. (Where they stand, `returned`, is the model's, log 3.) -/
def Obligations.QuarterRoundResult : Prop :=
  ∀ (a b c d : Word) (s : State),
    let a1 := a + b
    let d1 := d ^^^ a1
    let d2 := d1 <<< 16 ||| d1 >>> 16
    let c1 := c + d2
    let b1 := b ^^^ c1
    let b2 := b1 <<< 12 ||| b1 >>> 20
    let a2 := a1 + b2
    let d3 := d2 ^^^ a2
    let d4 := d3 <<< 8 ||| d3 >>> 24
    let c2 := c1 + d4
    let b3 := b2 ^^^ c2
    let b4 := b3 <<< 7 ||| b3 >>> 25
    quarterRound ⟨a, b, c, d⟩ = ⟨a2, b4, c2, d4⟩ ∧
    exec (.qr a b c d) s = .next { s with returned := [a2, b4, c2, d4] } ∧
    ∀ rc, encodeAt rc (.qr a b c d) = none

/-- R131: the all-zero input maps to the all-zero output, and identical inputs give identical outputs in all states.
(Where the outputs stand, `returned`, is the model's, log 3.) -/
def Obligations.QuarterRoundOfZero : Prop :=
  (∀ s : State, exec (.qr 0 0 0 0) s = .next { s with returned := [0, 0, 0, 0] }) ∧
  (∀ (a b c d : Word) (s t s' t' : State), exec (.qr a b c d) s = .next s' → exec (.qr a b c d) t = .next t' →
    s'.returned = t'.returned)

/-- R123 to R130: each scheduled application, at its QRSEL and its four indices, writes QR of the four words it reads
back to their places; nothing else changes, the other twelve words of X among it. -/
def Obligations.ScheduledApplications : Prop :=
  ∀ e ∈ ([(.qrA0, 0xC840#16, ⟨0, 4, 8, 12⟩), (.qrA1, 0xD951#16, ⟨1, 5, 9, 13⟩), (.qrA2, 0xEA62#16, ⟨2, 6, 10, 14⟩),
      (.qrA3, 0xFB73#16, ⟨3, 7, 11, 15⟩), (.qrB0, 0xFA50#16, ⟨0, 5, 10, 15⟩), (.qrB1, 0xCB61#16, ⟨1, 6, 11, 12⟩),
      (.qrB2, 0xD872#16, ⟨2, 7, 8, 13⟩), (.qrB3, 0xE943#16, ⟨3, 4, 9, 14⟩)] : List (Instr × BitVec 16 × Quad)),
    encode e.1 = some (.qrsel e.2.1) ∧
    ∀ (s : State) (f : Four), s.X[e.2.2.ia] = some f.a → s.X[e.2.2.ib] = some f.b → s.X[e.2.2.ic] = some f.c →
      s.X[e.2.2.id] = some f.d →
      ∃ x : Cells, exec e.1 s = .next { s with X := x } ∧
        x[e.2.2.ia] = some (quarterRound f).a ∧ x[e.2.2.ib] = some (quarterRound f).b ∧
        x[e.2.2.ic] = some (quarterRound f).c ∧ x[e.2.2.id] = some (quarterRound f).d ∧
        ∀ j : Fin 16, j ≠ e.2.2.ia → j ≠ e.2.2.ib → j ≠ e.2.2.ic → j ≠ e.2.2.id → x[j] = s.X[j]

/-- A read of a cell that holds ⊥ is `fault NoValue` of such a cell, in every operation that reads cells; which of
several such cells is named is the model's choice (log 4) and not said here. -/
def Obligations.NoValueReadsFault : Prop :=
  ∀ s : State,
    (∀ e ∈ ([(.qrA0, ⟨0, 4, 8, 12⟩), (.qrA1, ⟨1, 5, 9, 13⟩), (.qrA2, ⟨2, 6, 10, 14⟩), (.qrA3, ⟨3, 7, 11, 15⟩),
        (.qrB0, ⟨0, 5, 10, 15⟩), (.qrB1, ⟨1, 6, 11, 12⟩), (.qrB2, ⟨2, 7, 8, 13⟩), (.qrB3, ⟨3, 4, 9, 14⟩)] :
          List (Instr × Quad)),
      (∃ j ∈ [e.2.ia, e.2.ib, e.2.ic, e.2.id], s.X[j] = none) →
        ∃ j ∈ [e.2.ia, e.2.ib, e.2.ic, e.2.id], s.X[j] = none ∧ exec e.1 s = .fault (.noValue (.x j))) ∧
    ((∃ j : Fin 16, s.X[j] = none) → ∀ i ∈ [Instr.roundA, Instr.roundB],
        ∃ j : Fin 16, s.X[j] = none ∧ exec i s = .fault (.noValue (.x j))) ∧
    ((∃ j : Fin 16, s.S[j] = none) → ∃ j : Fin 16, s.S[j] = none ∧ exec .init s = .fault (.noValue (.s j))) ∧
    ((∃ j : Fin 16, s.X[j] = none ∨ s.S[j] = none) →
        (∃ j : Fin 16, s.X[j] = none ∧ exec .final s = .fault (.noValue (.x j))) ∨
        (∃ j : Fin 16, s.S[j] = none ∧ exec .final s = .fault (.noValue (.s j))))

/-! ### The rounds -/

/-- R140: ROUND.A, QR on the four column-like quads, at SEQ phase ROUND and rc even. The sequencer then advances
(R166); nothing else changes. -/
def Obligations.RoundAResult : Prop :=
  (∀ rc : BitVec 5, rc.toNat ≤ 18 → rc.toNat % 2 = 0 → decode (.seq (packSeq 0b010#3 rc)) = .ok .roundA) ∧
  ∀ (s : State) (x : Block), s.X = valued x →
    ∃ y : Block,
      exec .roundA s = .next { s with X := valued y, phase := if s.rc = 19#5 then 0b011#3 else s.phase,
                                      rc := if s.rc = 19#5 then s.rc else s.rc + 1#5 } ∧
      ∀ q ∈ ([⟨0, 4, 8, 12⟩, ⟨1, 5, 9, 13⟩, ⟨2, 6, 10, 14⟩, ⟨3, 7, 11, 15⟩] : List Quad),
        fourAt q y = quarterRound (fourAt q x)

/-- R141: ROUND.B, QR on the four diagonal-like quads, at SEQ phase ROUND and rc odd. The sequencer then advances
(R166); nothing else changes. -/
def Obligations.RoundBResult : Prop :=
  (∀ rc : BitVec 5, rc.toNat ≤ 19 → rc.toNat % 2 = 1 → decode (.seq (packSeq 0b010#3 rc)) = .ok .roundB) ∧
  ∀ (s : State) (x : Block), s.X = valued x →
    ∃ y : Block,
      exec .roundB s = .next { s with X := valued y, phase := if s.rc = 19#5 then 0b011#3 else s.phase,
                                      rc := if s.rc = 19#5 then s.rc else s.rc + 1#5 } ∧
      ∀ q ∈ ([⟨0, 5, 10, 15⟩, ⟨1, 6, 11, 12⟩, ⟨2, 7, 8, 13⟩, ⟨3, 4, 9, 14⟩] : List Quad),
        fourAt q y = quarterRound (fourAt q x)

/-- R142 (the spec's inference): the quads of a round partition the indices, so its applications may run in any order,
on cells and on words, with the same result. -/
def Obligations.RoundOrderIsFree : Prop :=
  ∀ qs ∈ [quadsA, quadsB],
    (qs.flatMap fun q => [q.ia, q.ib, q.ic, q.id]).Perm (List.finRange 16) ∧
    ∀ l : List Quad, l.Perm qs → ∀ x : Block,
      roundWords l x = roundWords qs x ∧ roundCells l (valued x) = .ok (valued (roundWords qs x))

/-- R145 (the spec's inference): the lane view gives the same X for every input. -/
def Obligations.LaneViewAgrees : Prop :=
  ∀ x : Block, laneWise x = roundAWords x ∧ laneRoundB x = roundBWords x

/-- R143, R144: twenty rounds are ten double rounds, and so for any even number of rounds. -/
def Obligations.ScheduleIsDoubleRounds : Prop :=
  (∀ (n : Nat) (x : Block), mixRounds (2 * n) x = dround^[n] x) ∧ ∀ x : Block, mix20 x = dround^[10] x

/-- The spec's inference in R144: the two round types do not commute. -/
def Obligations.RoundTypesDoNotCommute : Prop :=
  ∃ x : Block, roundBWords (roundAWords x) ≠ roundAWords (roundBWords x)

/-- R144 in the sequencer: at SEQ `{ROUND, r}` a step applies round r of the schedule; after round 19 comes FINAL. -/
def Obligations.SequencerAppliesRound : Prop :=
  ∀ (s : State) (x : Block), s.ports.rst = false → s.direct = none → s.phase = 0b010#3 → s.rc.toNat ≤ 19 →
    s.X = valued x →
    step s = .next (if s.rc.toNat = 19 then { s with X := valued (roundBWords x), phase := 0b011#3 }
      else { s with X := valued (if s.rc.toNat % 2 = 0 then roundAWords x else roundBWords x), rc := s.rc + 1#5 })

/-! ### The block -/

/-- R161: INIT. S holds values at every INIT of a run, so it raises nothing there. -/
def Obligations.InitCopiesState : Prop :=
  (∀ rc : BitVec 5, decode (.seq (packSeq 0b001#3 rc)) = .ok .init) ∧
  (∀ (s : State) (b : Block), s.S = valued b → exec .init s = .next { s with X := s.S, phase := 0b010#3 }) ∧
  ∀ s : State, Reachable s → s.phase = 0b001#3 → s.rc = 0#5 ∧ ∃ b : Block, s.S = valued b

/-- R162: FINAL, sixteen sums mod 2^32. X and S hold values at every FINAL of a run, so it raises nothing there. -/
def Obligations.FinalAddsState : Prop :=
  (∀ rc : BitVec 5, decode (.seq (packSeq 0b011#3 rc)) = .ok .final) ∧
  (∀ (s : State) (x b : Block), s.X = valued x → s.S = valued b →
    ∃ y : Block, exec .final s = .next { s with OUT := valued y, phase := 0b100#3 } ∧
      ∀ i : Fin 16, y[i].toNat = (x[i].toNat + b[i].toNat) % 2 ^ 32) ∧
  ∀ s : State, Reachable s → s.phase = 0b011#3 → ∃ x b : Block, s.X = valued x ∧ s.S = valued b

/-- R167, R168: HOLD.IDLE and HOLD.DONE take a command if `start` is 1 and change nothing otherwise; the status in IDLE
and in DONE, and ⊥ in every cell of a run's IDLE. -/
def Obligations.HoldTakesStartOrHolds : Prop :=
  (∀ rc : BitVec 5, decode (.seq (packSeq 0b000#3 rc)) = .ok .holdIdle ∧
    decode (.seq (packSeq 0b100#3 rc)) = .ok .holdDone) ∧
  (∀ i ∈ [Instr.holdIdle, Instr.holdDone], ∀ s : State,
    (s.ports.start = false → exec i s = .next s) ∧
    (s.ports.start = true → exec i s = .next
      { s with S := valued (assemble (portKey s.ports) (portCounter s.ports) (portNonce s.ports)),
               OUT := emptyCells, rc := 0#5, phase := 0b001#3 })) ∧
  (∀ s : State, (s.phase = 0b000#3 → s.busy = false ∧ s.done = false ∧ s.readBlock = .error (.noValue .blockOut)) ∧
    (s.phase = 0b100#3 → s.busy = false ∧ s.done = true)) ∧
  ∀ s : State, Reachable s → s.phase = 0b000#3 →
    s.OUT = emptyCells ∧ s.S = emptyCells ∧ s.X = emptyCells

/-- R160 and the acceptance of R164: at rest, with `rst` = 0, BLOCK assembles S from the constant and its operands,
OUT holds no value, rc is 0 and the phase INIT; nothing else changes. -/
def Obligations.BlockAcceptedAtRest : Prop :=
  ∀ (key counter nonce : List Word) (s : State), key.length = 8 → counter.length = 2 → nonce.length = 2 →
    s.ports.rst = false → (s.phase = 0b000#3 ∨ s.phase = 0b100#3) →
    ∃ b : Block,
      exec (.block key counter nonce) s = .next { s with S := valued b, OUT := emptyCells, rc := 0#5, phase := 0b001#3 } ∧
      b.toList = [0x61707865#32, 0x3320646e#32, 0x79622d32#32, 0x6b206574#32] ++ key ++ counter ++ nonce

/-- BLOCK where the core does not accept it, the command's own effect (the model's reading, log 5): none while busy and
none at a step with `rst` = 1, and the fault of R75 in a reserved SEQ value. -/
def Obligations.BlockTurnedAway : Prop :=
  ∀ (key counter nonce : List Word) (s : State), key.length = 8 → counter.length = 2 → nonce.length = 2 →
    (s.ports.rst = true → exec (.block key counter nonce) s = .next s) ∧
    (s.busy = true → (∃ i, decode (.seq s.seq) = .ok i) → exec (.block key counter nonce) s = .next s) ∧
    (s.ports.rst = false → decode (.seq s.seq) = .error (.reservedSeq s.seq) →
      exec (.block key counter nonce) s = .fault (.reservedSeq s.seq))

/-- R174: arrays of the wrong length are refused, arrays of the right length give BlockCore of their words. (That BLOCK
refuses them at `rst` = 1 and while busy too, the lengths being checked first, is the model's, log 13.) -/
def Obligations.MalformedInputRefused : Prop :=
  ∀ (key counter nonce : List Word) (s : State),
    (¬(key.length = 8 ∧ counter.length = 2 ∧ nonce.length = 2) →
      exec (.block key counter nonce) s = .refused .malformedInput ∧
      blockCoreArrays key counter nonce = .error .malformedInput) ∧
    (∀ (k : Vector Word 8) (c n : Vector Word 2), key = k.toList → counter = c.toList → nonce = n.toList →
      blockCoreArrays key counter nonce = .ok (blockCore k c n))

/-- R164 and R165, with R171's reference LATENCY of 23 (log 9): from rest, a step with `start` = 1 and `rst` = 0 accepts the operands on
the ports; while the next 22 steps run with `rst` = 0, whatever else the ports show, `busy` stays 1 and `block_out` has
no value; after the 22nd `done` is 1 and `block_out` is BlockCore of the accepted operands. With `rst` = 1, with `start` =
0 or in INIT, ROUND or FINAL nothing is accepted. -/
def Obligations.BlockTransaction : Prop :=
  (∀ (s t : State) (p : InPorts), step (s.drive p) = .next t →
    (p.rst = true → t.phase = 0b000#3 ∧ t.S = emptyCells) ∧
    (p.rst = false → (p.start = false ∨ s.busy = true) → t.S = s.S)) ∧
  ∀ (s : State) (p : InPorts), (s.phase = 0b000#3 ∨ s.phase = 0b100#3) → s.direct = none → p.rst = false →
    p.start = true →
    ∃ t : State, step (s.drive p) = .next t ∧
      t.S = valued (assemble (portKey p) (portCounter p) (portNonce p)) ∧ t.OUT = emptyCells ∧ t.rc = 0#5 ∧
      t.phase = 0b001#3 ∧
      ∀ ps : List InPorts, ps.length ≤ 22 → (∀ q ∈ ps, q.rst = false) →
        ∃ u : State, runPorts ps t = .next u ∧
          (ps.length < 22 → u.busy = true ∧ u.done = false ∧ u.readBlock = .error (.noValue .blockOut)) ∧
          (ps.length = 22 → u.busy = false ∧ u.done = true ∧
            u.readBlock = .ok (blockCore (portKey p) (portCounter p) (portNonce p)))

/-- R172: the same (key, counter, nonce) triple yields the same output block, from any two states at rest and whatever
the ports show after each acceptance. (The count of 22 steps is R171's, for the reference LATENCY, log 9.) -/
def Obligations.SameInputsSameBlock : Prop :=
  ∀ (s₁ s₂ : State) (p₁ p₂ : InPorts) (ps₁ ps₂ : List InPorts),
    s₁.resting = true → s₂.resting = true → s₁.direct = none → s₂.direct = none →
    p₁.rst = false → p₂.rst = false → p₁.start = true → p₂.start = true →
    p₁.keyIn = p₂.keyIn → p₁.counterIn = p₂.counterIn → p₁.nonceIn = p₂.nonceIn →
    ps₁.length = 22 → ps₂.length = 22 → (∀ q ∈ ps₁ ++ ps₂, q.rst = false) →
    ∃ u₁ u₂ : State, runPorts (p₁ :: ps₁) s₁ = .next u₁ ∧ runPorts (p₂ :: ps₂) s₂ = .next u₂ ∧
      u₁.done = true ∧ u₂.done = true ∧ u₁.readBlockOut = u₂.readBlockOut ∧ ∃ v, u₁.readBlockOut = .ok v

/-- R173: the counter words go into S[12..13] as given, and no step changes S until a reset or the next acceptance. -/
def Obligations.CounterNeverChanged : Prop :=
  ∀ (s : State) (p : InPorts) (ps : List InPorts) (t u : State), s.resting = true → s.direct = none →
    p.rst = false → p.start = true → (∀ q ∈ ps, q.rst = false ∧ q.start = false) →
    step (s.drive p) = .next t → runPorts ps t = .next u →
    u.S = t.S ∧ u.S[12] = some (p.counterIn.extractLsb' 0 32) ∧ u.S[13] = some (p.counterIn.extractLsb' 32 32)

/-! ### Ports -/

/-- R27: `busy` and `done`, functions of phase. -/
def Obligations.StatusFromPhase : Prop :=
  ∀ s : State, (s.busy = true ↔ s.phase = 0b001#3 ∨ s.phase = 0b010#3 ∨ s.phase = 0b011#3) ∧
    (s.done = true ↔ s.phase = 0b100#3) ∧ (s.phase = 0b000#3 → s.busy = false ∧ s.done = false)

/-- R38: `block_out` carries OUT while `done` = 1, word i at bits [32*i+31 : 32*i], and no value while `done` = 0. -/
def Obligations.BlockOutPort : Prop :=
  ∀ s : State,
    (∀ y : Block, s.done = true → s.OUT = valued y →
      ∃ v : BitVec 512, s.readBlockOut = .ok v ∧ ∀ i : Fin 16, v.extractLsb' (32 * i.val) 32 = y[i]) ∧
    (s.done = false → s.readBlockOut = .error (.noValue .blockOut))

/-- R170: the diagnostic dump port. No step takes a `Config`, so it changes no state and no result. (That a port with no
value answers `none` is the model's form of it, log 10.) -/
def Obligations.DebugPort : Prop :=
  ∀ (c : Config) (s : State),
    (s.dbgValid c = true ↔ c.debugDump = true ∧ s.phase = 0b001#3) ∧
    (∀ b : Block, s.dbgValid c = true → s.S = valued b →
      ∃ v : BitVec 512, s.readDbgState c = .ok (some v) ∧ ∀ i : Fin 16, v.extractLsb' (32 * i.val) 32 = b[i]) ∧
    (s.dbgValid c = false → s.readDbgState c = .ok none)

/-- R37: but at an acceptance, the values of `key_in`, `counter_in` and `nonce_in` have no effect on any state, and
`start` acts only in IDLE or DONE: two steps that differ in them alone differ in the ports alone. -/
def Obligations.PortsHaveNoEffectUnlessAccepted : Prop :=
  ∀ (s : State) (p q : InPorts), p.rst = q.rst →
    (p.rst = true ∨ s.resting = false ∨ (p.start = false ∧ q.start = false)) →
    (∀ t, step (s.drive p) = .next t → step (s.drive q) = .next (t.drive q)) ∧
    (∀ f, step (s.drive p) = .fault f → step (s.drive q) = .fault f) ∧
    (∀ r, step (s.drive p) = .refused r → step (s.drive q) = .refused r)

/-- R165: while busy, `start` = 1 has no effect and nothing of the command is recorded; in DONE with `start` = 0, OUT and
`done` = 1 hold at every step until an acceptance or a reset. -/
def Obligations.StartWhileBusyIgnoredAndResultHeld : Prop :=
  (∀ (s t : State) (p : InPorts), s.busy = true → p.rst = false →
    step (s.drive { p with start := false }) = .next t → step (s.drive { p with start := true }) =
      .next (t.drive { p with start := true })) ∧
  (∀ (s : State) (ps : List InPorts), s.phase = 0b100#3 → s.direct = none →
    (∀ q ∈ ps, q.rst = false ∧ q.start = false) →
    ∃ u : State, runPorts ps s = .next u ∧ u.OUT = s.OUT ∧ u.done = true ∧ u.readBlockOut = s.readBlockOut)

/-! ### Reset -/

/-- R34: the state after reset. (The ports, `direct` and `returned` are no registers of the core, logs 1 to 3; that
`dbg_state` with no value answers `none` is the model's form of it, log 10.) -/
def Obligations.ResetState : Prop :=
  State.reset.phase = 0b000#3 ∧ State.reset.rc = 0#5 ∧
  (∀ i : Fin 16, State.reset.S[i] = none ∧ State.reset.X[i] = none ∧ State.reset.OUT[i] = none) ∧
  State.reset.busy = false ∧ State.reset.done = false ∧
  (∀ c : Config, State.reset.dbgValid c = false ∧ State.reset.readDbgState c = .ok none) ∧
  constWords = #v[0x61707865#32, 0x3320646e#32, 0x79622d32#32, 0x6b206574#32]

/-- R230, R203: at a step with `rst` = 1, whatever the phase, `start` and the rest of the state, the core goes to the
state after reset; holding `rst` repeats the same effect. -/
def Obligations.ResetWins : Prop :=
  ∀ s : State, s.ports.rst = true →
    ∃ t : State, step s = .next t ∧ t.phase = 0b000#3 ∧ t.rc = 0#5 ∧ t.S = emptyCells ∧ t.X = emptyCells ∧
      t.OUT = emptyCells ∧ t.ports = s.ports ∧ step t = .next t

/-- The whole state after a step with `rst` = 1 is the state after reset under the host's ports. That the model's own
fields `direct` and `returned` are emptied is the model's choice (logs 2, 3). -/
def Obligations.ResetEmptiesTheModelsFields : Prop :=
  ∀ s : State, s.ports.rst = true → step s = .next (State.reset.drive s.ports)

/-- R231: a reset abandons a block. `done` does not rise for it however long the host waits, and the next block is
BlockCore of its own operands. (The count of 22 steps is R171's, for the reference LATENCY, log 9.) -/
def Obligations.ResetAbandonsBlock : Prop :=
  ∀ (s : State) (p : InPorts) (ps : List InPorts), p.rst = true → (∀ q ∈ ps, q.start = false) →
    ∃ u : State, runPorts (p :: ps) s = .next u ∧ u.done = false ∧ u.busy = false ∧
      u.readBlockOut = .error (.noValue .blockOut) ∧
      ∀ (q : InPorts) (qs : List InPorts), q.rst = false → q.start = true → qs.length = 22 →
        (∀ r ∈ qs, r.rst = false) →
        ∃ v : State, runPorts (q :: qs) u = .next v ∧ v.done = true ∧
          v.readBlock = .ok (blockCore (portKey q) (portCounter q) (portNonce q))

/-- R232: the first step after a reset with `rst` = 0 accepts `start` = 1 at once. -/
def Obligations.AcceptsAfterReset : Prop :=
  ∀ (s : State) (p q : InPorts), p.rst = true → q.rst = false → q.start = true →
    ∃ t u : State, step (s.drive p) = .next t ∧ t.phase = 0b000#3 ∧ step (t.drive q) = .next u ∧ u.phase = 0b001#3 ∧
      u.S = valued (assemble (portKey q) (portCounter q) (portNonce q))

/-! ### The step -/

/-- A step with `rst` = 0 and no direct application runs the operation SEQ decodes to, and nothing around it (R166). -/
def Obligations.StepRunsDecodedSeq : Prop :=
  ∀ (s : State) (i : Instr), s.ports.rst = false → s.direct = none → decode (.seq s.seq) = .ok i → step s = exec i s

/-- A step that is given a direct application (the model's own slot, log 2) runs the decoded operation on the state
with the slot emptied, whatever SEQ holds, a reserved value too (log 2); QR, which has no encoding, runs on its four words; a reserved amount is refused. -/
def Obligations.StepRunsDirectApplication : Prop :=
  ∀ s : State, s.ports.rst = false →
    (∀ w i, s.direct = some (.select w) → decode (.qrsel w) = .ok i → step s = exec i { s with direct := none }) ∧
    (∀ n v i, s.direct = some (.rotate n v) → decode (.rotamt n v) = .ok i →
      step s = exec i { s with direct := none }) ∧
    (∀ n v, s.direct = some (.rotate n v) → 33 ≤ n.toNat → step s = .refused (.rotAmountOutOfDomain n.toNat)) ∧
    (∀ a b c d, s.direct = some (.quarter a b c d) → step s = exec (.qr a b c d) { s with direct := none })

/-- A step at rest with `start` = 1 is BLOCK with the operands of the input bundle: the CMD on the ports and the HOLD
operation of SEQ are one acceptance (R164, R166). -/
def Obligations.StartAtRestRunsBlock : Prop :=
  ∀ s : State, s.ports.rst = false → s.ports.start = true → s.direct = none →
    (s.phase = 0b000#3 ∨ s.phase = 0b100#3) →
    ∃ key counter nonce, decode (.cmd 1#1 (inputBundle s.ports)) = .ok (.block key counter nonce) ∧
      step s = exec (.block key counter nonce) s

/-- A step after `withFetchWord` runs the operation the decoder reads from the table's word (the placing is the
model's, logs 7 and 8). -/
def Obligations.PlacedTableWordRuns : Prop :=
  ∀ (s : State) (nbits w : Nat) (i : Instr), decodeTableWord nbits w = some i →
    step (s.withFetchWord nbits w) = exec i { s.withFetchWord nbits w with direct := none }

/-- R166: the reference sequencer's step, case by case; what each operation leaves unchanged is what its case does not
name. -/
def Obligations.ReferenceSequencerStep : Prop :=
  ∀ s : State, s.direct = none →
    (s.ports.rst = true → ∃ t : State, step s = .next t ∧ t.phase = 0b000#3 ∧ t.rc = 0#5 ∧ t.S = emptyCells ∧
      t.X = emptyCells ∧ t.OUT = emptyCells) ∧
    (s.ports.rst = false →
      (decodeSeq s.seq = none → step s = .fault (.reservedSeq s.seq)) ∧
      (decodeSeq s.seq = some .holdIdle ∨ decodeSeq s.seq = some .holdDone → step s = .next
        (if s.ports.start then
          { s with S := valued (assemble (portKey s.ports) (portCounter s.ports) (portNonce s.ports)),
                   OUT := emptyCells, rc := 0#5, phase := 0b001#3 }
        else s)) ∧
      (∀ b : Block, decodeSeq s.seq = some .init → s.S = valued b →
        step s = .next { s with X := valued b, phase := 0b010#3 }) ∧
      (∀ x : Block, decodeSeq s.seq = some .roundA → s.X = valued x → step s = .next
        (if s.rc = 19#5 then { s with X := valued (roundAWords x), phase := 0b011#3 }
        else { s with X := valued (roundAWords x), rc := s.rc + 1#5 })) ∧
      (∀ x : Block, decodeSeq s.seq = some .roundB → s.X = valued x → step s = .next
        (if s.rc = 19#5 then { s with X := valued (roundBWords x), phase := 0b011#3 }
        else { s with X := valued (roundBWords x), rc := s.rc + 1#5 })) ∧
      (∀ x b : Block, decodeSeq s.seq = some .final → s.X = valued x → s.S = valued b →
        step s = .next { s with OUT := valued (addWords x b), phase := 0b100#3 }))

/-- The phases of a block, step by step (the spec's inference R171): INIT after the acceptance, ROUND with rc = r after
r + 1 more steps and X then r rounds along, FINAL after 21, DONE after 22 with the block in OUT. S stays as assembled. -/
def Obligations.BlockPassesThroughPhases : Prop :=
  ∀ (s : State) (p : InPorts) (ps : List InPorts), s.resting = true → s.direct = none → p.rst = false →
    p.start = true → (∀ q ∈ ps, q.rst = false) → ps.length ≤ 22 →
    let b := assemble (portKey p) (portCounter p) (portNonce p)
    ∃ u : State, runPorts (p :: ps) s = .next u ∧ u.S = valued b ∧
      (ps.length = 0 → u.phase = 0b001#3 ∧ u.rc = 0#5) ∧
      (∀ r < 20, ps.length = r + 1 → u.phase = 0b010#3 ∧ u.rc.toNat = r ∧ u.X = valued (mixRounds r b)) ∧
      (ps.length = 21 → u.phase = 0b011#3 ∧ u.X = valued (mix20 b)) ∧
      (ps.length = 22 → u.phase = 0b100#3 ∧
        u.OUT = valued (blockCore (portKey p) (portCounter p) (portNonce p)))

/-! ### Whole-machine rules -/

/-- The invariant holds after reset. -/
def Obligations.InvariantAtReset : Prop := Inv State.reset

/-- Every step keeps the invariant: what S, X, OUT and rc hold in each phase, from every state that meets it and
whatever the ports show. -/
def Obligations.StepKeepsInvariant : Prop := ∀ s s' : State, Inv s → step s = .next s' → Inv s'

/-- No run from reset stops, whatever the host drives: the core raises no exception (R200), and no stop of R201 is reached
by its steps. -/
def Obligations.StepNeverStops : Prop :=
  (∀ s : State, Inv s → ∃ s', step s = .next s') ∧
  (∀ s : State, Reachable s → ∀ p : InPorts, ∃ s', step (s.drive p) = .next s')

/-- R74 (the spec's inference): the SEQ values reached from reset are exactly 0x00, 0x20, 0x40 to 0x53, 0x73, 0x93. -/
def Obligations.ReachableSeqValues : Prop :=
  ∀ w : BitVec 8, (∃ s, Reachable s ∧ s.seq = w) ↔
    w = 0x00#8 ∨ w = 0x20#8 ∨ (0x40#8 ≤ w ∧ w ≤ 0x53#8) ∨ w = 0x73#8 ∨ w = 0x93#8

/-- R39 (the spec's inference) over a whole step of the sequencer: S is written only by acceptance, X only in INIT and
ROUND, OUT only by FINAL and acceptance; the ports and the model's own fields are not written. -/
def Obligations.WritersOfState : Prop :=
  ∀ s s' : State, s.ports.rst = false → s.direct = none → step s = .next s' →
    (s'.S ≠ s.S → s.resting = true ∧ s.ports.start = true) ∧
    (s'.X ≠ s.X → s.phase = 0b001#3 ∨ s.phase = 0b010#3) ∧
    (s'.OUT ≠ s.OUT → s.phase = 0b011#3 ∨ (s.resting = true ∧ s.ports.start = true)) ∧
    s'.ports = s.ports ∧ s'.direct = none ∧ s'.returned = s.returned

/-- The reference sequencer refines the port-level transaction with LATENCY 23 (D1, D6): after reset it shows a core at
rest; a state that shows a transaction has its `busy`, its `done` and its `block_out`; and every step goes on and shows
the transaction's step. -/
def Obligations.SequencerRefinesTransaction : Prop :=
  Shows State.reset .idle ∧
  ∀ (s : State) (t : Txn), Shows s t →
    s.busy = t.isBusy ∧ s.done = t.isDone ∧ s.readBlock = t.readBlock ∧
    ∃ s', step s = .next s' ∧ Shows s' (t.step 23 s.ports)

/-- The transaction with any LATENCY ≥ 1 (R9, R241): after an acceptance `done` reads 1 for the first time after exactly
LATENCY steps, counted from and including the acceptance, for all operands and whatever the ports show, `rst` being 0; it is
busy until then (R165) and `block_out` is then BlockCore of the operands (R164). (That a core of a LATENCY other than 23 is
this transaction, one of LATENCY 1 with `done` right after its acceptance among them, is the model's reading, log 9.) -/
def Obligations.TransactionLatencyIsConstant : Prop :=
  ∀ (latency : Nat) (t : Txn) (p : InPorts) (ps : List InPorts), 1 ≤ latency → t.isBusy = false → p.start = true →
    p.rst = false → (∀ q ∈ ps, q.rst = false) → ps.length + 1 ≤ latency →
    let u := (p :: ps).foldl (fun t q => t.step latency q) t
    (ps.length + 1 < latency → u.isBusy = true ∧ u.isDone = false) ∧
    (ps.length + 1 = latency → u.readBlock = .ok (blockCore (portKey p) (portCounter p) (portNonce p)))

/-! ### The host and the platform -/

/-- The host's READ (R83, R235): at a step at which `done` = 0 it faults with `NoValue(block_out)`; at a step at which
`done` = 1 and OUT holds its words it takes those words, and the core takes its step with `start` and `rst` at 0.
(That READ reads the state before its step, so that it faults in FINAL too, and that the data ports keep their values,
are the model's, log 15.) -/
def Obligations.HostReadNeedsDone : Prop :=
  ∀ (b : Bench) (rest : List HostAction), b.script = .read :: rest →
    (b.core.done = false → b.step = .fault (.noValue .blockOut)) ∧
    (∀ y : Block, b.core.done = true → b.core.OUT = valued y → b.core.direct = none →
      b.step = .next { core := b.core.drive b.core.ports.released, script := rest, seen := b.seen ++ [y] })

/-- The host's WAIT (R83) ends: from a busy core that shows `left` steps to go, after `left` steps of waiting `done` is 1
and `block_out` is the block's result. (That the WAIT, still at the head of the script, is then met and takes no further
step is the model's, log 15.) -/
def Obligations.HostWaitEnds : Prop :=
  ∀ (s : State) (left : Nat) (result : Block) (rest : List HostAction) (seen : List Block), Shows s (.busy left result) →
    ∃ b : Bench, Bench.run left { core := s, script := .wait :: rest, seen := seen } = .next b ∧ b.core.done = true ∧
      b.core.readBlock = .ok result ∧ b.script = .wait :: rest ∧ b.seen = seen

/-- Cores on one platform share nothing (R208): a step of one is its own step and leaves every other as it is. (That one
core steps at a time is the model's, log 11.) -/
def Obligations.PlatformCoresShareNothing : Prop :=
  ∀ (P Q : Platform) (k : Fin P.cores.length) (p : InPorts), P.stepCore k p = .next Q →
    Q.cores.length = P.cores.length ∧ (∃ s, step ((P.cores[k]).drive p) = .next s ∧ Q.cores[k.val]? = some s) ∧
    ∀ j : Nat, j ≠ k.val → Q.cores[j]? = P.cores[j]?
end

