-- ==== Sys2Proof/Laws/Decode.lean ====
section
/-! SUPPORT. Laws of the fields, the decoder and the encoder. -/

namespace Sys2Proof

/-! ### SEQ -/

@[simp] theorem seqPhase_packSeq (p : BitVec 3) (rc : BitVec 5) : seqPhase (packSeq p rc) = p := by
  unfold seqPhase packSeq; revert p rc; decide

@[simp] theorem seqRc_packSeq (p : BitVec 3) (rc : BitVec 5) : seqRc (packSeq p rc) = rc := by
  unfold seqRc packSeq; revert p rc; decide

@[simp] theorem packSeq_fields (w : BitVec 8) : packSeq (seqPhase w) (seqRc w) = w := by
  revert w; decide

/-- The operation of every SEQ value, by its fields. -/
theorem decodeSeq_packSeq (p : BitVec 3) (rc : BitVec 5) :
    decodeSeq (packSeq p rc) =
      if p = phaseIdle then some .holdIdle
      else if p = phaseInit then some .init
      else if p = phaseRound then
        if 19 < rc.toNat then none else if rc.toNat % 2 = 1 then some .roundB else some .roundA
      else if p = phaseFinal then some .final
      else if p = phaseDone then some .holdDone
      else none := by
  revert p rc; decide

@[simp] theorem decodeSeq_idle (rc : BitVec 5) : decodeSeq (packSeq phaseIdle rc) = some .holdIdle := by
  rw [decodeSeq_packSeq]; rfl

@[simp] theorem decodeSeq_init (rc : BitVec 5) : decodeSeq (packSeq phaseInit rc) = some .init := by
  rw [decodeSeq_packSeq]; rfl

@[simp] theorem decodeSeq_final (rc : BitVec 5) : decodeSeq (packSeq phaseFinal rc) = some .final := by
  rw [decodeSeq_packSeq]; rfl

@[simp] theorem decodeSeq_done (rc : BitVec 5) : decodeSeq (packSeq phaseDone rc) = some .holdDone := by
  rw [decodeSeq_packSeq]; rfl

/-- In phase ROUND the round index decides (R73). -/
theorem decodeSeq_round (rc : BitVec 5) :
    decodeSeq (packSeq phaseRound rc) =
      if 19 < rc.toNat then none else if rc.toNat % 2 = 1 then some .roundB else some .roundA := by
  rw [decodeSeq_packSeq]; rfl

/-- SEQ decodes to operations of the SEQ format only. -/
theorem decodeSeq_op {w : BitVec 8} {i : Instr} (h : decodeSeq w = some i) :
    i ∈ [Instr.holdIdle, .init, .roundA, .roundB, .final, .holdDone] := by
  rw [← packSeq_fields w, decodeSeq_packSeq] at h
  split_ifs at h <;> simp_all

/-! ### The decoder, place by place -/

theorem decode_seq (w : BitVec 8) :
    decode (.seq w) = (match decodeSeq w with | some i => .ok i | none => .error (.reservedSeq w)) := rfl

theorem decode_seq_ok {w : BitVec 8} {i : Instr} : decode (.seq w) = .ok i ↔ decodeSeq w = some i := by
  rw [decode_seq]; cases decodeSeq w <;> simp

theorem decode_qrsel_ok {w : BitVec 16} {i : Instr} : decode (.qrsel w) = .ok i ↔ decodeQrsel w = some i := by
  simp only [decode]; cases decodeQrsel w <;> simp

theorem decode_rotamt_ok {n : BitVec 6} {v : Word} {i : Instr} :
    decode (.rotamt n v) = .ok i ↔ n.toNat ≤ 32 ∧ i = .rotl v n.toNat := by
  simp only [decode, decodeRotamt]; split_ifs with h <;> simp [h, eq_comm]

theorem decode_cmd_ok {b : BitVec 1} {ib : BitVec 384} {i : Instr} :
    decode (.cmd b ib) = .ok i ↔
      b = 1#1 ∧ i = .block (wordsAt ib 0 8) (wordsAt ib 8 2) (wordsAt ib 10 2) := by
  simp only [decode, decodeCmd]; split_ifs with h <;> simp [h, eq_comm]

theorem decodeQrsel_some {w : BitVec 16} {i : Instr} (h : decodeQrsel w = some i) : (i, w) ∈ qrselTable := by
  simp only [decodeQrsel, Option.map_eq_some_iff] at h
  obtain ⟨⟨j, v⟩, hf, rfl⟩ := h
  have hv := List.find?_some hf
  simp only [beq_iff_eq] at hv
  exact hv ▸ List.mem_of_find?_eq_some hf

/-- A value without a row is none of the eight admitted ones. -/
theorem decodeQrsel_eq_none {w : BitVec 16}
    (h : w ∉ [0xC840#16, 0xD951#16, 0xEA62#16, 0xFB73#16, 0xFA50#16, 0xCB61#16, 0xD872#16, 0xE943#16]) :
    decodeQrsel w = none := by
  cases hd : decodeQrsel w with
  | none => rfl
  | some i => exact absurd (List.mem_map_of_mem (f := Prod.snd) (decodeQrsel_some hd)) h

/-! ### Words -/

@[simp] theorem wordsAt_length {w : Nat} (v : BitVec w) (a n : Nat) : (wordsAt v a n).length = n := by
  simp [wordsAt]

theorem wordsAt_getElem {w : Nat} (v : BitVec w) (a n k : Nat) (h : k < (wordsAt v a n).length) :
    (wordsAt v a n)[k] = wordAt v (a + k) := by
  simp [wordsAt]

theorem wordsAt_append {w : Nat} (v : BitVec w) (a m n : Nat) :
    wordsAt v a m ++ wordsAt v (a + m) n = wordsAt v a (m + n) := by
  simp [wordsAt, List.range_add, Nat.add_assoc]

/-- Packed words fit in 32 bits each. -/
theorem packWords_lt (l : List Word) : packWords l < 2 ^ (32 * l.length) := by
  induction l with
  | nil => simp [packWords]
  | cons v vs ih =>
    have hv := v.isLt
    have : 2 ^ (32 * (vs.length + 1)) = 2 ^ 32 * 2 ^ (32 * vs.length) := by
      rw [← Nat.pow_add]; congr 1; omega
    simp only [packWords, List.length_cons, this]
    calc v.toNat + 2 ^ 32 * packWords vs < 2 ^ 32 + 2 ^ 32 * packWords vs := by omega
      _ = 2 ^ 32 * (packWords vs + 1) := by ring
      _ ≤ 2 ^ 32 * 2 ^ (32 * vs.length) := Nat.mul_le_mul_left _ ih

/-- Word `k` of packed words. -/
theorem packWords_word (l : List Word) (k : Nat) (h : k < l.length) :
    packWords l / 2 ^ (32 * k) % 2 ^ 32 = l[k].toNat := by
  induction l generalizing k with
  | nil => simp at h
  | cons v vs ih =>
    have hv := v.isLt
    cases k with
    | zero => simp [packWords, Nat.add_mod, Nat.mod_eq_of_lt hv]
    | succ k =>
      have hk : k < vs.length := by simpa using h
      have : 2 ^ (32 * (k + 1)) = 2 ^ 32 * 2 ^ (32 * k) := by rw [← Nat.pow_add]; congr 1; omega
      have hd : (v.toNat + 2 ^ 32 * packWords vs) / 2 ^ 32 = packWords vs := by omega
      simp only [packWords, this, ← Nat.div_div_eq_div_mul, hd, List.getElem_cons_succ]
      exact ih k hk

/-- Reading a word of packed words gives the word. -/
theorem wordAt_packWords (w : Nat) (l : List Word) (k : Nat) (h : k < l.length) (hw : 32 * l.length ≤ w) :
    wordAt (BitVec.ofNat w (packWords l)) k = l[k] := by
  have hl : packWords l < 2 ^ w :=
    Nat.lt_of_lt_of_le (packWords_lt l) (Nat.pow_le_pow_right (by omega) hw)
  apply BitVec.eq_of_toNat_eq
  rw [← packWords_word l k h]
  simp only [wordAt, BitVec.extractLsb'_toNat, BitVec.toNat_ofNat, Nat.mod_eq_of_lt hl, Nat.shiftRight_eq_div_pow]

theorem wordsAt_succ {w : Nat} (v : BitVec w) (a n : Nat) :
    wordsAt v a (n + 1) = wordAt v a :: wordsAt v (a + 1) n := by
  have h := wordsAt_append v a 1 n
  rw [Nat.add_comm 1 n] at h
  rw [← h]; simp [wordsAt]

/-- Packing the words of a bundle gives their bits back. -/
theorem packWords_wordsAt {w : Nat} (v : BitVec w) (a n : Nat) :
    packWords (wordsAt v a n) = v.toNat / 2 ^ (32 * a) % 2 ^ (32 * n) := by
  induction n generalizing a with
  | zero => simp [wordsAt, packWords, Nat.mod_one]
  | succ n ih =>
    have e1 : 2 ^ (32 * (a + 1)) = 2 ^ (32 * a) * 2 ^ 32 := by rw [Nat.mul_succ, Nat.pow_add]
    have e2 : 2 ^ (32 * (n + 1)) = 2 ^ 32 * 2 ^ (32 * n) := by rw [Nat.mul_succ, Nat.add_comm, Nat.pow_add]
    rw [wordsAt_succ, packWords, ih, e1, e2, Nat.mod_mul, Nat.div_div_eq_div_mul]
    simp only [wordAt, BitVec.extractLsb'_toNat, Nat.shiftRight_eq_div_pow]

end Sys2Proof
end

