-- ==== Sys2Proof/Laws/State.lean ====
section
/-! SUPPORT. One lemma per field per update of State, each true by unfolding once, and the updates' small laws. -/

namespace Sys2Proof.Machine

/-! ### `State.drive` -/

@[simp] theorem State.drive_phase (p : InPorts) (s : State) : (s.drive p).phase = s.phase := rfl
@[simp] theorem State.drive_rc (p : InPorts) (s : State) : (s.drive p).rc = s.rc := rfl
@[simp] theorem State.drive_S (p : InPorts) (s : State) : (s.drive p).S = s.S := rfl
@[simp] theorem State.drive_X (p : InPorts) (s : State) : (s.drive p).X = s.X := rfl
@[simp] theorem State.drive_OUT (p : InPorts) (s : State) : (s.drive p).OUT = s.OUT := rfl
@[simp] theorem State.drive_ports (p : InPorts) (s : State) : (s.drive p).ports = p := rfl
@[simp] theorem State.drive_direct (p : InPorts) (s : State) : (s.drive p).direct = s.direct := rfl
@[simp] theorem State.drive_returned (p : InPorts) (s : State) : (s.drive p).returned = s.returned := rfl

/-! ### `State.setX` -/

@[simp] theorem State.setX_phase (x : Cells) (s : State) : (s.setX x).phase = s.phase := rfl
@[simp] theorem State.setX_rc (x : Cells) (s : State) : (s.setX x).rc = s.rc := rfl
@[simp] theorem State.setX_S (x : Cells) (s : State) : (s.setX x).S = s.S := rfl
@[simp] theorem State.setX_X (x : Cells) (s : State) : (s.setX x).X = x := rfl
@[simp] theorem State.setX_OUT (x : Cells) (s : State) : (s.setX x).OUT = s.OUT := rfl
@[simp] theorem State.setX_ports (x : Cells) (s : State) : (s.setX x).ports = s.ports := rfl
@[simp] theorem State.setX_direct (x : Cells) (s : State) : (s.setX x).direct = s.direct := rfl
@[simp] theorem State.setX_returned (x : Cells) (s : State) : (s.setX x).returned = s.returned := rfl

/-! ### `State.setPhase` -/

@[simp] theorem State.setPhase_phase (p : BitVec 3) (s : State) : (s.setPhase p).phase = p := rfl
@[simp] theorem State.setPhase_rc (p : BitVec 3) (s : State) : (s.setPhase p).rc = s.rc := rfl
@[simp] theorem State.setPhase_S (p : BitVec 3) (s : State) : (s.setPhase p).S = s.S := rfl
@[simp] theorem State.setPhase_X (p : BitVec 3) (s : State) : (s.setPhase p).X = s.X := rfl
@[simp] theorem State.setPhase_OUT (p : BitVec 3) (s : State) : (s.setPhase p).OUT = s.OUT := rfl
@[simp] theorem State.setPhase_ports (p : BitVec 3) (s : State) : (s.setPhase p).ports = s.ports := rfl
@[simp] theorem State.setPhase_direct (p : BitVec 3) (s : State) : (s.setPhase p).direct = s.direct := rfl
@[simp] theorem State.setPhase_returned (p : BitVec 3) (s : State) : (s.setPhase p).returned = s.returned := rfl

/-! ### `State.setReturned` -/

@[simp] theorem State.setReturned_phase (ws : List Word) (s : State) : (s.setReturned ws).phase = s.phase := rfl
@[simp] theorem State.setReturned_rc (ws : List Word) (s : State) : (s.setReturned ws).rc = s.rc := rfl
@[simp] theorem State.setReturned_S (ws : List Word) (s : State) : (s.setReturned ws).S = s.S := rfl
@[simp] theorem State.setReturned_X (ws : List Word) (s : State) : (s.setReturned ws).X = s.X := rfl
@[simp] theorem State.setReturned_OUT (ws : List Word) (s : State) : (s.setReturned ws).OUT = s.OUT := rfl
@[simp] theorem State.setReturned_ports (ws : List Word) (s : State) : (s.setReturned ws).ports = s.ports := rfl
@[simp] theorem State.setReturned_direct (ws : List Word) (s : State) : (s.setReturned ws).direct = s.direct := rfl
@[simp] theorem State.setReturned_returned (ws : List Word) (s : State) : (s.setReturned ws).returned = ws := rfl

/-! ### `State.clearDirect` -/

@[simp] theorem State.clearDirect_phase (s : State) : (s.clearDirect).phase = s.phase := rfl
@[simp] theorem State.clearDirect_rc (s : State) : (s.clearDirect).rc = s.rc := rfl
@[simp] theorem State.clearDirect_S (s : State) : (s.clearDirect).S = s.S := rfl
@[simp] theorem State.clearDirect_X (s : State) : (s.clearDirect).X = s.X := rfl
@[simp] theorem State.clearDirect_OUT (s : State) : (s.clearDirect).OUT = s.OUT := rfl
@[simp] theorem State.clearDirect_ports (s : State) : (s.clearDirect).ports = s.ports := rfl
@[simp] theorem State.clearDirect_direct (s : State) : (s.clearDirect).direct = none := rfl
@[simp] theorem State.clearDirect_returned (s : State) : (s.clearDirect).returned = s.returned := rfl

/-! ### `accept` -/

@[simp] theorem accept_phase (k : Vector Word 8) (c n : Vector Word 2) (s : State) : (accept k c n s).phase = phaseInit := rfl
@[simp] theorem accept_rc (k : Vector Word 8) (c n : Vector Word 2) (s : State) : (accept k c n s).rc = 0#5 := rfl
@[simp] theorem accept_S (k : Vector Word 8) (c n : Vector Word 2) (s : State) : (accept k c n s).S = valued (assemble k c n) := rfl
@[simp] theorem accept_X (k : Vector Word 8) (c n : Vector Word 2) (s : State) : (accept k c n s).X = s.X := rfl
@[simp] theorem accept_OUT (k : Vector Word 8) (c n : Vector Word 2) (s : State) : (accept k c n s).OUT = emptyCells := rfl
@[simp] theorem accept_ports (k : Vector Word 8) (c n : Vector Word 2) (s : State) : (accept k c n s).ports = s.ports := rfl
@[simp] theorem accept_direct (k : Vector Word 8) (c n : Vector Word 2) (s : State) : (accept k c n s).direct = s.direct := rfl
@[simp] theorem accept_returned (k : Vector Word 8) (c n : Vector Word 2) (s : State) : (accept k c n s).returned = s.returned := rfl

/-! ### `acceptPorts` -/

@[simp] theorem acceptPorts_phase (s : State) : (acceptPorts s).phase = phaseInit := rfl
@[simp] theorem acceptPorts_rc (s : State) : (acceptPorts s).rc = 0#5 := rfl
@[simp] theorem acceptPorts_S (s : State) : (acceptPorts s).S = valued (assemble (portKey s.ports) (portCounter s.ports) (portNonce s.ports)) := rfl
@[simp] theorem acceptPorts_X (s : State) : (acceptPorts s).X = s.X := rfl
@[simp] theorem acceptPorts_OUT (s : State) : (acceptPorts s).OUT = emptyCells := rfl
@[simp] theorem acceptPorts_ports (s : State) : (acceptPorts s).ports = s.ports := rfl
@[simp] theorem acceptPorts_direct (s : State) : (acceptPorts s).direct = s.direct := rfl
@[simp] theorem acceptPorts_returned (s : State) : (acceptPorts s).returned = s.returned := rfl

/-! ### `doReset` -/

@[simp] theorem doReset_phase (s : State) : (doReset s).phase = phaseIdle := rfl
@[simp] theorem doReset_rc (s : State) : (doReset s).rc = 0#5 := rfl
@[simp] theorem doReset_S (s : State) : (doReset s).S = emptyCells := rfl
@[simp] theorem doReset_X (s : State) : (doReset s).X = emptyCells := rfl
@[simp] theorem doReset_OUT (s : State) : (doReset s).OUT = emptyCells := rfl
@[simp] theorem doReset_ports (s : State) : (doReset s).ports = s.ports := rfl
@[simp] theorem doReset_direct (s : State) : (doReset s).direct = none := rfl
@[simp] theorem doReset_returned (s : State) : (doReset s).returned = [] := rfl

/-! ### `advance` -/

@[simp] theorem advance_S (s : State) : (advance s).S = s.S := by unfold advance; split <;> rfl
@[simp] theorem advance_X (s : State) : (advance s).X = s.X := by unfold advance; split <;> rfl
@[simp] theorem advance_OUT (s : State) : (advance s).OUT = s.OUT := by unfold advance; split <;> rfl
@[simp] theorem advance_ports (s : State) : (advance s).ports = s.ports := by unfold advance; split <;> rfl
@[simp] theorem advance_direct (s : State) : (advance s).direct = s.direct := by unfold advance; split <;> rfl
@[simp] theorem advance_returned (s : State) : (advance s).returned = s.returned := by unfold advance; split <;> rfl

theorem advance_phase (s : State) : (advance s).phase = if s.rc = 19#5 then phaseFinal else s.phase := by
  unfold advance; split <;> rfl

theorem advance_rc (s : State) : (advance s).rc = if s.rc = 19#5 then s.rc else s.rc + 1#5 := by
  unfold advance; split <;> rfl

/-- `advance` as one update. -/
theorem advance_eq (s : State) :
    advance s = { s with phase := if s.rc = 19#5 then phaseFinal else s.phase,
                         rc := if s.rc = 19#5 then s.rc else s.rc + 1#5 } := by
  unfold advance; split <;> rfl

/-! ### Laws of updates -/

@[simp] theorem State.drive_self (s : State) : s.drive s.ports = s := rfl

@[simp] theorem State.drive_drive (p q : InPorts) (s : State) : (s.drive p).drive q = s.drive q := rfl

theorem State.clearDirect_of_none {s : State} (h : s.direct = none) : s.clearDirect = s := by
  cases s; cases h; rfl

theorem State.drive_clearDirect (p : InPorts) (s : State) : (s.drive p).clearDirect = s.clearDirect.drive p := rfl

@[simp] theorem State.seq_drive (p : InPorts) (s : State) : (s.drive p).seq = s.seq := rfl

@[simp] theorem State.busy_drive (p : InPorts) (s : State) : (s.drive p).busy = s.busy := rfl

@[simp] theorem State.done_drive (p : InPorts) (s : State) : (s.drive p).done = s.done := rfl

@[simp] theorem State.resting_drive (p : InPorts) (s : State) : (s.drive p).resting = s.resting := rfl

/-- A reset leaves the state after reset, under the host's ports. -/
theorem doReset_eq (s : State) : doReset s = State.reset.drive s.ports := rfl

end Sys2Proof.Machine
end

