-- ==== Sys2Proof/Laws/Ops.lean ====
section
/-! SUPPORT. Everything a read of cells can do, and BLOCK's operands. -/

namespace Sys2Proof.Machine

/-! ### Cells -/

@[simp] theorem valued_getElem (b : Block) (i : Fin 16) : (valued b)[i] = some b[i] := by simp [valued]

@[simp] theorem valued_getElem_nat (b : Block) (i : Nat) (h : i < 16) : (valued b)[i] = some b[i] := by
  simp [valued]

@[simp] theorem emptyCells_getElem (i : Fin 16) : emptyCells[i] = none := by simp [emptyCells]

theorem valued_injective {b b' : Block} (h : valued b = valued b') : b = b' := by
  apply Vector.ext
  intro i hi
  have := valued_getElem_nat b i hi
  rw [h, valued_getElem_nat] at this
  exact (Option.some.inj this).symm

theorem valued_ne_emptyCells (b : Block) : valued b ≠ emptyCells := by
  intro h
  have := valued_getElem b 0
  rw [h, emptyCells_getElem] at this
  cases this

theorem valued_set (b : Block) (i : Fin 16) (v : Word) : (valued b).set i (some v) = valued (b.set i v) := by
  apply Vector.ext
  intro j hj
  by_cases h : i.val = j <;> simp [h]

@[simp] theorem fillFrom_getElem (cells source : Cells) (i : Fin 16) :
    (fillFrom cells source)[i] = cells[i].or source[i] := by simp [fillFrom]

/-- Filling gives sixteen words, and cells that hold words keep them. -/
theorem fillFrom_valued (cells : Cells) (b : Block) :
    fillFrom cells (valued b) = valued (Vector.ofFn fun i => cells[i].getD b[i]) := by
  apply Vector.ext
  intro i hi
  simp only [fillFrom, valued, Vector.getElem_ofFn, Fin.getElem_fin]
  cases cells[i] <;> rfl

@[simp] theorem fillFrom_of_valued (b : Block) (source : Cells) : fillFrom (valued b) source = valued b := by
  apply Vector.ext
  intro i hi
  simp [fillFrom]

/-- The placed S and X hold words, so the placed operation reads no ⊥. -/
theorem State.held_valued (s : State) : ∃ b x : Block, s.heldS = valued b ∧ s.heldX = valued x := by
  simp only [State.heldX, State.heldS, fillFrom_valued]
  exact ⟨_, _, rfl, rfl⟩

/-! ### Reads -/

theorem readCell_some {name : Fin 16 → Reg} {cells : Cells} {i : Fin 16} {v : Word} (h : cells[i] = some v) :
    readCell name cells i = .ok v := by simp only [readCell, h]

theorem readCell_none {name : Fin 16 → Reg} {cells : Cells} {i : Fin 16} (h : cells[i] = none) :
    readCell name cells i = .error (.noValue (name i)) := by simp only [readCell, h]

@[simp] theorem readCell_valued (name : Fin 16 → Reg) (b : Block) (i : Fin 16) :
    readCell name (valued b) i = .ok b[i] := readCell_some (valued_getElem b i)

@[simp] theorem readAll_valued (name : Fin 16 → Reg) (b : Block) : readAll name (valued b) = .ok b := by
  have h : (List.finRange 16).find? (fun i => (valued b)[i].isNone) = none := by simp
  have hb : (Vector.ofFn fun i => (valued b)[i].getD 0#32) = b := by
    apply Vector.ext; intro i hi; simp
  simp only [readAll, h, hb]

/-- A read of sixteen cells, one of which holds ⊥, faults with such a cell. -/
theorem readAll_none {name : Fin 16 → Reg} {cells : Cells} {i : Fin 16} (h : cells[i] = none) :
    ∃ j : Fin 16, cells[j] = none ∧ readAll name cells = .error (.noValue (name j)) := by
  unfold readAll
  cases hf : (List.finRange 16).find? (fun i => cells[i].isNone) with
  | none => exact absurd (List.find?_eq_none.mp hf i (List.mem_finRange i)) (by simp [h])
  | some j => exact ⟨j, by simpa using List.find?_some hf, rfl⟩

/-- A read of sixteen cells answers a block exactly where the cells hold that block. -/
theorem readAll_ok {name : Fin 16 → Reg} {cells : Cells} {b : Block} :
    readAll name cells = .ok b ↔ cells = valued b := by
  constructor
  · intro h
    have hv : ∀ i : Fin 16, ∃ v, cells[i] = some v := fun i => by
      cases hc : cells[i] with
      | some v => exact ⟨v, rfl⟩
      | none =>
        obtain ⟨j, -, hj⟩ := readAll_none (name := name) hc
        rw [hj] at h; cases h
    choose f hf using hv
    have hc : cells = valued (Vector.ofFn f) := by
      apply Vector.ext
      intro i hi
      simpa using hf ⟨i, hi⟩
    rw [hc, readAll_valued] at h
    rw [hc]; cases h; rfl
  · rintro rfl; exact readAll_valued name b

@[simp] theorem ofExcept_ok (s : State) : ofExcept (.ok s) = .next s := rfl

@[simp] theorem ofExcept_error (f : Fault) : ofExcept (.error f) = .fault f := rfl

/-! ### Operands of BLOCK -/

@[simp] theorem wordsOfLength_toList {n : Nat} (v : Vector Word n) : wordsOfLength n v.toList = some v := by
  obtain ⟨a, rfl⟩ := v; simp [wordsOfLength]

theorem wordsOfLength_of_length {n : Nat} {l : List Word} (h : l.length = n) :
    ∃ v : Vector Word n, wordsOfLength n l = some v ∧ v.toList = l := by
  subst h; exact ⟨⟨l.toArray, by simp⟩, by simp [wordsOfLength], by simp⟩

theorem wordsOfLength_none {n : Nat} {l : List Word} (h : l.length ≠ n) : wordsOfLength n l = none := by
  simp [wordsOfLength, h]

theorem assemble_toList (k : Vector Word 8) (c n : Vector Word 2) :
    (assemble k c n).toList = constWords.toList ++ k.toList ++ c.toList ++ n.toList := by
  simp only [assemble, Vector.toList_append]

theorem assemble_const (k : Vector Word 8) (c n : Vector Word 2) {i : Nat} (h : i < 4) :
    (assemble k c n)[i] = constWords[i] := by
  simp only [assemble]
  rw [Vector.getElem_append_left (by omega), Vector.getElem_append_left (by omega),
    Vector.getElem_append_left (by omega)]

theorem assemble_key (k : Vector Word 8) (c n : Vector Word 2) {i : Nat} (h : i < 8) :
    (assemble k c n)[4 + i] = k[i] := by
  simp only [assemble]
  rw [Vector.getElem_append_left (by omega), Vector.getElem_append_left (by omega),
    Vector.getElem_append_right (by omega) (by omega)]
  simp

theorem assemble_counter (k : Vector Word 8) (cw n : Vector Word 2) {i : Nat} (h : i < 2) :
    (assemble k cw n)[12 + i] = cw[i] := by
  simp only [assemble]
  rw [Vector.getElem_append_left (by omega), Vector.getElem_append_right (by omega) (by omega)]
  simp

theorem assemble_nonce (k : Vector Word 8) (c n : Vector Word 2) {i : Nat} (h : i < 2) :
    (assemble k c n)[14 + i] = n[i] := by
  simp only [assemble]
  rw [Vector.getElem_append_right (by omega) (by omega)]
  simp

/-- The bits of the input bundle are the bits of the data ports (R71). -/
theorem inputBundle_getLsbD (p : InPorts) (k : Nat) :
    (inputBundle p).getLsbD k =
      if k < 256 then p.keyIn.getLsbD k
      else if k < 320 then p.counterIn.getLsbD (k - 256) else p.nonceIn.getLsbD (k - 320) := by
  have e : (inputBundle p).getLsbD k = (p.nonceIn ++ p.counterIn ++ p.keyIn).getLsbD k := rfl
  rw [e, BitVec.getLsbD_append, BitVec.getLsbD_append]
  by_cases h1 : k < 256
  · simp [h1]
  · by_cases h2 : k < 320
    · have : k - 256 < 64 := by omega
      simp [h1, h2, this]
    · have h3 : ¬ k - 256 < 64 := by omega
      have h4 : k - 256 - 64 = k - 320 := by omega
      simp [h1, h2, h3, h4]

/-- A word of the bundle below the counter is a key word. -/
theorem wordAt_inputBundle_key (p : InPorts) {j : Nat} (hj : j < 8) :
    wordAt (inputBundle p) j = wordAt p.keyIn j := by
  apply BitVec.eq_of_getLsbD_eq
  intro k hk
  have : 32 * j + k < 256 := by omega
  simp only [wordAt, BitVec.getLsbD_extractLsb', inputBundle_getLsbD, this, if_true]

/-- Words 8 and 9 of the bundle are the counter words. -/
theorem wordAt_inputBundle_counter (p : InPorts) {j : Nat} (hj : j < 2) :
    wordAt (inputBundle p) (8 + j) = wordAt p.counterIn j := by
  apply BitVec.eq_of_getLsbD_eq
  intro k hk
  have h1 : ¬ 32 * (8 + j) + k < 256 := by omega
  have h2 : 32 * (8 + j) + k < 320 := by omega
  have h3 : 32 * (8 + j) + k - 256 = 32 * j + k := by omega
  simp only [wordAt, BitVec.getLsbD_extractLsb', inputBundle_getLsbD, h1, h2, h3, if_true, if_false]

/-- Words 10 and 11 of the bundle are the nonce words. -/
theorem wordAt_inputBundle_nonce (p : InPorts) {j : Nat} (hj : j < 2) :
    wordAt (inputBundle p) (10 + j) = wordAt p.nonceIn j := by
  apply BitVec.eq_of_getLsbD_eq
  intro k hk
  have h1 : ¬ 32 * (10 + j) + k < 256 := by omega
  have h2 : ¬ 32 * (10 + j) + k < 320 := by omega
  have h3 : 32 * (10 + j) + k - 320 = 32 * j + k := by omega
  simp only [wordAt, BitVec.getLsbD_extractLsb', inputBundle_getLsbD, h1, h2, h3, if_false]

/-- The operand lists that the command port decodes to are the words the ports give an acceptance. -/
theorem wordsAt_inputBundle (p : InPorts) :
    wordsAt (inputBundle p) 0 8 = (portKey p).toList ∧ wordsAt (inputBundle p) 8 2 = (portCounter p).toList ∧
      wordsAt (inputBundle p) 10 2 = (portNonce p).toList := by
  refine ⟨?_, ?_, ?_⟩ <;> apply List.ext_getElem <;> simp only [wordsAt_length, Vector.length_toList] <;>
    intro j h1 h2 <;> rw [wordsAt_getElem]
  · rw [Nat.zero_add, wordAt_inputBundle_key p h1]; simp [portKey]
  · rw [wordAt_inputBundle_counter p h1]; simp [portCounter]
  · rw [wordAt_inputBundle_nonce p h1]; simp [portNonce]

end Sys2Proof.Machine
end

