-- ==== Sys2Proof/Laws/PerInstr.lean ====
section
/-! SUPPORT. Statements made per operation: an encoding has the format of its row, in one place (30_encoding.md R70,
R81). -/

namespace Sys2Proof.Laws.SinglePlace

/-- Every encoding of the operation, at every `rc`, has the operation's own format. -/
def Statement (i : Instr) : Prop := ∀ rc b, encodeAt rc i = some b → i.format = some b.format

theorem block (key counter nonce : List Word) : Statement (.block key counter nonce) := by
  intro rc b h; simp only [encodeAt] at h; split_ifs at h; cases h; rfl

theorem holdIdle : Statement (.holdIdle) := by
  intro rc b h; cases h; rfl

theorem init : Statement (.init) := by
  intro rc b h; cases h; rfl

theorem roundA : Statement (.roundA) := by
  intro rc b h; simp only [encodeAt] at h; split_ifs at h; cases h; rfl

theorem roundB : Statement (.roundB) := by
  intro rc b h; simp only [encodeAt] at h; split_ifs at h; cases h; rfl

theorem final : Statement (.final) := by
  intro rc b h; cases h; rfl

theorem holdDone : Statement (.holdDone) := by
  intro rc b h; cases h; rfl

theorem qrA0 : Statement (.qrA0) := by
  intro rc b h; cases h; rfl

theorem qrA1 : Statement (.qrA1) := by
  intro rc b h; cases h; rfl

theorem qrA2 : Statement (.qrA2) := by
  intro rc b h; cases h; rfl

theorem qrA3 : Statement (.qrA3) := by
  intro rc b h; cases h; rfl

theorem qrB0 : Statement (.qrB0) := by
  intro rc b h; cases h; rfl

theorem qrB1 : Statement (.qrB1) := by
  intro rc b h; cases h; rfl

theorem qrB2 : Statement (.qrB2) := by
  intro rc b h; cases h; rfl

theorem qrB3 : Statement (.qrB3) := by
  intro rc b h; cases h; rfl

theorem qr (a b c d : Word) : Statement (.qr a b c d) := by
  intro rc b h; cases h

theorem rotl (v : Word) (n : Nat) : Statement (.rotl v n) := by
  intro rc b h; simp only [encodeAt] at h; split_ifs at h; cases h; rfl

end Sys2Proof.Laws.SinglePlace
end

