-- ==== Sys2Proof/Laws/Rounds.lean ====
section
/-! SUPPORT. Everything a quarter-round application and a round can do, on cells and on words. -/

namespace Sys2Proof.Machine

/-! ### The quads -/

theorem quadsA_eq : quadsA = [⟨0, 4, 8, 12⟩, ⟨1, 5, 9, 13⟩, ⟨2, 6, 10, 14⟩, ⟨3, 7, 11, 15⟩] := by decide

theorem quadsB_eq : quadsB = [⟨0, 5, 10, 15⟩, ⟨1, 6, 11, 12⟩, ⟨2, 7, 8, 13⟩, ⟨3, 4, 9, 14⟩] := by decide

/-- The four indices of a quad. -/
def indices (q : Quad) : List (Fin 16) := [q.ia, q.ib, q.ic, q.id]

/-- The quads of a round share no index and cover every index (R142). -/
theorem quads_partition : ∀ qs ∈ [quadsA, quadsB], (qs.flatMap indices).Nodup ∧ ∀ j, j ∈ qs.flatMap indices := by
  decide

/-- The indices of every quad of a round are distinct (R122). -/
theorem indices_nodup {q : Quad} (h : q ∈ quadsA ∨ q ∈ quadsB) : (indices q).Nodup := by
  have ha : ∀ q ∈ quadsA, (indices q).Nodup := by decide
  have hb : ∀ q ∈ quadsB, (indices q).Nodup := by decide
  exact h.elim (ha q) (hb q)

/-! ### One application -/

/-- An application to cells that hold words is the application to the words. -/
@[simp] theorem applyQuad_valued (x : Block) (q : Quad) : applyQuad (valued x) q = .ok (valued (quarterAt x q)) := by
  simp only [applyQuad, readCell_valued, valued_set, quarterAt, fourAt]
  rfl

/-- An application whose four cells hold words. -/
theorem applyQuad_some {x : Cells} {q : Quad} {f : Four} (ha : x[q.ia] = some f.a) (hb : x[q.ib] = some f.b)
    (hc : x[q.ic] = some f.c) (hd : x[q.id] = some f.d) :
    applyQuad x q = .ok ((((x.set q.ia (some (quarterRound f).a)).set q.ib (some (quarterRound f).b)).set q.ic
      (some (quarterRound f).c)).set q.id (some (quarterRound f).d)) := by
  simp only [applyQuad, readCell_some ha, readCell_some hb, readCell_some hc, readCell_some hd]
  rfl

/-- An application that meets ⊥ faults with one of its four cells. -/
theorem applyQuad_none {x : Cells} {q : Quad} (h : ∃ j ∈ indices q, x[j] = none) :
    ∃ j ∈ indices q, x[j] = none ∧ applyQuad x q = .error (.noValue (.x j)) := by
  simp only [indices, List.mem_cons, List.not_mem_nil, or_false] at h ⊢
  cases ha : x[q.ia] with
  | none => exact ⟨q.ia, .inl rfl, ha, by simp only [applyQuad, readCell_none ha]; rfl⟩
  | some a => cases hb : x[q.ib] with
    | none =>
      exact ⟨q.ib, .inr (.inl rfl), hb, by simp only [applyQuad, readCell_some ha, readCell_none hb]; rfl⟩
    | some b => cases hc : x[q.ic] with
      | none =>
        exact ⟨q.ic, .inr (.inr (.inl rfl)), hc,
          by simp only [applyQuad, readCell_some ha, readCell_some hb, readCell_none hc]; rfl⟩
      | some c => cases hd : x[q.id] with
        | none =>
          exact ⟨q.id, .inr (.inr (.inr rfl)), hd,
            by simp only [applyQuad, readCell_some ha, readCell_some hb, readCell_some hc, readCell_none hd]; rfl⟩
        | some d =>
          obtain ⟨j, rfl | rfl | rfl | rfl, hj⟩ := h <;> simp_all

/-- An application changes no cell but those of its quad. -/
theorem applyQuad_frame {x y : Cells} {q : Quad} (h : applyQuad x q = .ok y) {j : Fin 16} (hj : j ∉ indices q) :
    y[j] = x[j] := by
  simp only [indices, List.mem_cons, List.not_mem_nil, or_false, not_or] at hj
  obtain ⟨ja, jb, jc, jd⟩ := hj
  have hne : ∀ k : Fin 16, j ≠ k → ¬(k.val = j.val) := fun k h e => h (Fin.ext e.symm)
  cases ha : x[q.ia] with
  | none =>
    simp only [applyQuad, readCell_none ha] at h; cases h
  | some a => cases hb : x[q.ib] with
    | none => simp only [applyQuad, readCell_some ha, readCell_none hb] at h; cases h
    | some b => cases hc : x[q.ic] with
      | none => simp only [applyQuad, readCell_some ha, readCell_some hb, readCell_none hc] at h; cases h
      | some c => cases hd : x[q.id] with
        | none =>
          simp only [applyQuad, readCell_some ha, readCell_some hb, readCell_some hc, readCell_none hd] at h
          cases h
        | some d =>
          rw [applyQuad_some (f := ⟨a, b, c, d⟩) ha hb hc hd] at h
          cases h
          simp [hne _ ja, hne _ jb, hne _ jc, hne _ jd]

/-- An application changes no word but those of its quad. -/
theorem quarterAt_frame (x : Block) {q : Quad} {j : Fin 16} (hj : j ∉ indices q) : (quarterAt x q)[j] = x[j] := by
  have := applyQuad_frame (applyQuad_valued x q) hj
  simpa using this

/-- The four words an application writes. -/
theorem fourAt_quarterAt (x : Block) {q : Quad} (h : (indices q).Nodup) :
    fourAt q (quarterAt x q) = quarterRound (fourAt q x) := by
  simp only [indices, List.nodup_cons, List.mem_cons, List.not_mem_nil, or_false, not_or] at h
  obtain ⟨⟨ab, ac, ad⟩, ⟨bc, bd⟩, cd, -⟩ := h
  have hne : ∀ {k l : Fin 16}, k ≠ l → l.val ≠ k.val := fun h e => h (Fin.ext e.symm)
  simp [quarterAt, fourAt, hne ab, hne ac, hne ad, hne bc, hne bd, hne cd]

/-- What a quad reads is left alone by an application to other words. -/
theorem fourAt_quarterAt_of_disjoint (x : Block) {p q : Quad} (h : ∀ j ∈ indices p, j ∉ indices q) :
    fourAt p (quarterAt x q) = fourAt p x := by
  have e : ∀ j ∈ indices p, (quarterAt x q)[j] = x[j] := fun j hj => quarterAt_frame x (h j hj)
  simp only [indices, List.mem_cons, List.not_mem_nil, or_false] at e
  simp only [fourAt, e _ (.inl rfl), e _ (.inr (.inl rfl)), e _ (.inr (.inr (.inl rfl))), e _ (.inr (.inr (.inr rfl)))]

/-- `apply(QRSEL)` of an admitted value whose four cells hold words (R122). -/
theorem applyQrsel_some {w : BitVec 16} {q : Quad} (hq : quadOf w = some q) {s : State} {f : Four}
    (ha : s.X[q.ia] = some f.a) (hb : s.X[q.ib] = some f.b) (hc : s.X[q.ic] = some f.c) (hd : s.X[q.id] = some f.d) :
    applyQrsel w s = .next (s.setX ((((s.X.set q.ia (some (quarterRound f).a)).set q.ib
      (some (quarterRound f).b)).set q.ic (some (quarterRound f).c)).set q.id (some (quarterRound f).d))) := by
  simp only [applyQrsel, hq, applyQuad_some ha hb hc hd]
  rfl

/-- `apply(QRSEL)` of an admitted value that meets ⊥. -/
theorem applyQrsel_none {w : BitVec 16} {q : Quad} (hq : quadOf w = some q) {s : State}
    (h : ∃ j ∈ indices q, s.X[j] = none) :
    ∃ j ∈ indices q, s.X[j] = none ∧ applyQrsel w s = .fault (.noValue (.x j)) := by
  obtain ⟨j, hj, hx, he⟩ := applyQuad_none h
  exact ⟨j, hj, hx, by simp only [applyQrsel, hq, he]; rfl⟩

/-- `apply(QRSEL)` writes X alone. -/
theorem applyQrsel_next {w : BitVec 16} {s t : State} (h : applyQrsel w s = .next t) : t = s.setX t.X := by
  simp only [applyQrsel] at h
  cases hq : quadOf w with
  | none => rw [hq] at h; cases h
  | some q =>
    rw [hq] at h
    cases hx : applyQuad s.X q with
    | error f => simp only [hx] at h; cases h
    | ok x => simp only [hx] at h; cases h; rfl

/-! ### A round -/

/-- A round on cells that hold words is the round on the words. -/
@[simp] theorem roundCells_valued (qs : List Quad) (x : Block) :
    roundCells qs (valued x) = .ok (valued (roundWords qs x)) := by
  unfold roundCells roundWords
  induction qs generalizing x with
  | nil => rfl
  | cons q qs ih =>
    rw [List.foldlM_cons, applyQuad_valued, List.foldl_cons]
    exact ih _

theorem roundWords_cons (q : Quad) (qs : List Quad) (x : Block) :
    roundWords (q :: qs) x = roundWords qs (quarterAt x q) := rfl

/-- A quad that shares no index with a round's quads is left alone by the round. -/
theorem fourAt_roundWords_of_disjoint {p : Quad} {qs : List Quad} (x : Block)
    (h : ∀ j ∈ indices p, j ∉ qs.flatMap indices) : fourAt p (roundWords qs x) = fourAt p x := by
  induction qs generalizing x with
  | nil => rfl
  | cons q qs ih =>
    simp only [List.flatMap_cons, List.mem_append, not_or] at h
    rw [roundWords_cons, ih _ fun j hj => (h j hj).2, fourAt_quarterAt_of_disjoint x fun j hj => (h j hj).1]

/-- In a round of quads that share no index, each quad's words become QR of what they were: the round is one
simultaneous update (R142). -/
theorem fourAt_roundWords {qs : List Quad} (hn : (qs.flatMap indices).Nodup) (x : Block) {p : Quad} (hp : p ∈ qs) :
    fourAt p (roundWords qs x) = quarterRound (fourAt p x) := by
  induction qs generalizing x with
  | nil => cases hp
  | cons q qs ih =>
    rw [List.flatMap_cons, List.nodup_append] at hn
    obtain ⟨hq, hqs, hd⟩ := hn
    rw [roundWords_cons]
    rcases List.mem_cons.mp hp with rfl | hp
    · rw [fourAt_roundWords_of_disjoint _ fun j hj hk => hd j hj j hk rfl, fourAt_quarterAt x hq]
    · rw [ih hqs _ hp, fourAt_quarterAt_of_disjoint x fun j hj hk =>
        hd j hk j (List.mem_flatMap.mpr ⟨p, hp, hj⟩) rfl]

/-- Two blocks that agree on quads which cover every index are equal. -/
theorem eq_of_fourAt {qs : List Quad} (hall : ∀ j, j ∈ qs.flatMap indices) {x y : Block}
    (h : ∀ q ∈ qs, fourAt q x = fourAt q y) : x = y := by
  apply Vector.ext
  intro i hi
  obtain ⟨q, hq, hj⟩ := List.mem_flatMap.mp (hall ⟨i, hi⟩)
  have hf := h q hq
  simp only [fourAt, Four.mk.injEq] at hf
  simp only [indices, List.mem_cons, List.not_mem_nil, or_false] at hj
  have key : ∀ k : Fin 16, (⟨i, hi⟩ : Fin 16) = k → x[k] = y[k] → x[i] = y[i] := by rintro _ rfl e; exact e
  obtain ⟨ea, eb, ec, ed⟩ := hf
  rcases hj with e | e | e | e
  exacts [key _ e ea, key _ e eb, key _ e ec, key _ e ed]

/-- A round that meets ⊥ faults with one of its cells. -/
theorem roundCells_none {qs : List Quad} (hn : (qs.flatMap indices).Nodup) {x : Cells}
    (h : ∃ j ∈ qs.flatMap indices, x[j] = none) :
    ∃ j ∈ qs.flatMap indices, x[j] = none ∧ roundCells qs x = .error (.noValue (.x j)) := by
  induction qs generalizing x with
  | nil => obtain ⟨j, hj, -⟩ := h; cases hj
  | cons q qs ih =>
    rw [List.flatMap_cons, List.nodup_append] at hn
    obtain ⟨-, hqs, hd⟩ := hn
    simp only [List.flatMap_cons, List.mem_append] at h ⊢
    by_cases hq : ∃ j ∈ indices q, x[j] = none
    · obtain ⟨j, hj, hx, he⟩ := applyQuad_none hq
      exact ⟨j, .inl hj, hx, by simp only [roundCells, List.foldlM_cons, he]; rfl⟩
    · have hs : ∀ j ∈ indices q, ∃ v, x[j] = some v := fun j hj =>
        Option.ne_none_iff_exists'.mp fun hx => hq ⟨j, hj, hx⟩
      simp only [indices, List.mem_cons, List.not_mem_nil, or_false] at hs
      obtain ⟨a, ha⟩ := hs _ (.inl rfl)
      obtain ⟨b, hb⟩ := hs _ (.inr (.inl rfl))
      obtain ⟨c, hc⟩ := hs _ (.inr (.inr (.inl rfl)))
      obtain ⟨d, he⟩ := hs _ (.inr (.inr (.inr rfl)))
      have hy := applyQuad_some (f := ⟨a, b, c, d⟩) ha hb hc he
      obtain ⟨j, hj, hx⟩ := h
      have hjq : j ∉ indices q := fun hjq => hq ⟨j, hjq, hx⟩
      obtain ⟨k, hkm, hk, hf⟩ := ih hqs ⟨j, hj.resolve_left hjq, (applyQuad_frame hy hjq).trans hx⟩
      have hkq : k ∉ indices q := fun hkq => hd k hkq k hkm rfl
      refine ⟨k, .inr hkm, (applyQuad_frame hy hkq).symm.trans hk, ?_⟩
      simp only [roundCells, List.foldlM_cons, hy]
      exact hf

@[simp] theorem mixRounds_zero (x : Block) : mixRounds 0 x = x := rfl

theorem mixRounds_succ (n : Nat) (x : Block) : mixRounds (n + 1) x = roundAt n (mixRounds n x) := rfl

/-! ### The block -/

theorem addWords_getElem (x b : Block) (i : Fin 16) : (addWords x b)[i] = x[i] + b[i] := by
  simp [addWords, add32]

end Sys2Proof.Machine
end

