-- ==== Sys2Proof/Laws/Step.lean ====
section
/-! SUPPORT. Everything a step can do, case by case; the meanings' spec lemmas that the steps of the sequencer cite. -/

namespace Sys2Proof.Machine

/-! ### The meanings on cells that hold words -/

theorem execInit_valued {s : State} {b : Block} (h : s.S = valued b) :
    execInit s = .next { s with X := s.S, phase := phaseRound } := by
  simp only [execInit, Except.map, State.setPhase, State.setX, h, readAll_valued, ofExcept_ok]

theorem execRoundA_valued {s : State} {x : Block} (h : s.X = valued x) :
    execRoundA s = .next (advance (s.setX (valued (roundAWords x)))) := by
  simp only [execRoundA, h, roundCells_valued]
  rfl

theorem execRoundB_valued {s : State} {x : Block} (h : s.X = valued x) :
    execRoundB s = .next (advance (s.setX (valued (roundBWords x)))) := by
  simp only [execRoundB, h, roundCells_valued]
  rfl

theorem execFinal_valued {s : State} {x b : Block} (hx : s.X = valued x) (hb : s.S = valued b) :
    execFinal s = .next { s with OUT := valued (addWords x b), phase := phaseDone } := by
  simp only [execFinal, hx, hb, readAll_valued]
  rfl

/-! ### The scheduled applications are `apply` at their QRSEL -/

theorem exec_qrA0 (s : State) : exec .qrA0 s = applyQrsel 0xC840#16 s := rfl

theorem exec_qrA1 (s : State) : exec .qrA1 s = applyQrsel 0xD951#16 s := rfl

theorem exec_qrA2 (s : State) : exec .qrA2 s = applyQrsel 0xEA62#16 s := rfl

theorem exec_qrA3 (s : State) : exec .qrA3 s = applyQrsel 0xFB73#16 s := rfl

theorem exec_qrB0 (s : State) : exec .qrB0 s = applyQrsel 0xFA50#16 s := rfl

theorem exec_qrB1 (s : State) : exec .qrB1 s = applyQrsel 0xCB61#16 s := rfl

theorem exec_qrB2 (s : State) : exec .qrB2 s = applyQrsel 0xD872#16 s := rfl

theorem exec_qrB3 (s : State) : exec .qrB3 s = applyQrsel 0xE943#16 s := rfl

/-! ### The step -/

theorem step_reset {s : State} (h : s.ports.rst = true) : step s = .next (doReset s) := by
  simp [step, h]

/-- A step without a direct application runs the operation of SEQ on the state itself. -/
theorem step_seq {s : State} {i : Instr} (hr : s.ports.rst = false) (hd : s.direct = none)
    (h : decodeSeq s.seq = some i) : step s = exec i s := by
  simp [step, fetch, hr, hd, h, State.clearDirect_of_none hd]

theorem step_reserved {s : State} (hr : s.ports.rst = false) (hd : s.direct = none) (h : decodeSeq s.seq = none) :
    step s = .fault (.reservedSeq s.seq) := by
  simp [step, fetch, hr, hd, h]

theorem step_hold {s : State} (hr : s.ports.rst = false) (hd : s.direct = none) (h : s.resting = true) :
    step s = .next (if s.ports.start then acceptPorts s else s) := by
  simp only [State.resting, Bool.or_eq_true, beq_iff_eq] at h
  obtain h | h := h
  · rw [step_seq hr hd (i := .holdIdle) (by simp [State.seq, h])]; rfl
  · rw [step_seq hr hd (i := .holdDone) (by simp [State.seq, h])]; rfl

theorem step_init {s : State} {b : Block} (hr : s.ports.rst = false) (hd : s.direct = none) (h : s.phase = phaseInit)
    (hb : s.S = valued b) : step s = .next { s with X := s.S, phase := phaseRound } := by
  rw [step_seq hr hd (i := .init) (by simp [State.seq, h])]
  exact execInit_valued hb

theorem step_round {s : State} {x : Block} (hr : s.ports.rst = false) (hd : s.direct = none) (h : s.phase = phaseRound)
    (hrc : s.rc.toNat ≤ 19) (hx : s.X = valued x) :
    step s = .next (advance (s.setX (valued (roundAt s.rc.toNat x)))) := by
  have hn : ¬ 19 < s.rc.toNat := by omega
  by_cases hp : s.rc.toNat % 2 = 1
  · rw [step_seq hr hd (i := .roundB) (by simp [State.seq, h, decodeSeq_round, hn, hp])]
    exact (execRoundB_valued hx).trans (by simp [roundAt, hp])
  · have hz : s.rc.toNat % 2 = 0 := by omega
    rw [step_seq hr hd (i := .roundA) (by simp [State.seq, h, decodeSeq_round, hn, hp])]
    exact (execRoundA_valued hx).trans (by simp [roundAt, hz])

theorem step_final {s : State} {x b : Block} (hr : s.ports.rst = false) (hd : s.direct = none)
    (h : s.phase = phaseFinal) (hx : s.X = valued x) (hb : s.S = valued b) :
    step s = .next { s with OUT := valued (addWords x b), phase := phaseDone } := by
  rw [step_seq hr hd (i := .final) (by simp [State.seq, h])]
  exact execFinal_valued hx hb

/-- What the sequencer's step answers without a direct application: a reset, a fault in a reserved SEQ value, or the
operation of SEQ. -/
theorem step_cases {s : State} (hd : s.direct = none) :
    (s.ports.rst = true ∧ step s = .next (doReset s)) ∨
    (s.ports.rst = false ∧ decodeSeq s.seq = none ∧ step s = .fault (.reservedSeq s.seq)) ∨
    (s.ports.rst = false ∧ ∃ i, decodeSeq s.seq = some i ∧ step s = exec i s) := by
  cases hr : s.ports.rst with
  | true => exact .inl ⟨rfl, step_reset hr⟩
  | false =>
    cases h : decodeSeq s.seq with
    | none => exact .inr (.inl ⟨rfl, rfl, step_reserved hr hd h⟩)
    | some i => exact .inr (.inr ⟨rfl, i, rfl, step_seq hr hd h⟩)

end Sys2Proof.Machine
end

