-- ==== Sys2Proof/Tests/Slice0.lean ====
section
/-! SUPPORT. Tests. Every expected value is transcribed from spec/95_test_vectors.md or written out from the encodings
of spec/30_encoding.md, as each test says. -/

namespace Sys2Proof.Tests

open Sys2Proof.Machine

/-! ### Small states -/

/-- The standard-case S (L2.5). -/
def stdS : Block :=
  #v[0x61707865#32, 0x3320646e#32, 0x79622d32#32, 0x6b206574#32, 0x03020100#32, 0x07060504#32,
    0x0b0a0908#32, 0x0f0e0d0c#32, 0x13121110#32, 0x17161514#32, 0x1b1a1918#32, 0x1f1e1d1c#32,
    0x00000001#32, 0x00000000#32, 0x00000009#32, 0x0000004a#32]

/-- X after the standard case's first ROUND.A (L2.5). -/
def stdX1 : Block :=
  #v[0xabbaa25c#32, 0x1eca51ea#32, 0xfdb4fbde#32, 0xe3d2dc6e#32, 0x3a465196#32, 0x2bf9e4ee#32,
    0xc2caf5d0#32, 0x955f1ae1#32, 0x6b3ca454#32, 0x38f41bb1#32, 0xd8cd504f#32, 0xaa8ed7db#32,
    0xdec62ed2#32, 0xb86bcc77#32, 0x877fb2cb#32, 0x18a64091#32]

/-- X after the standard case's first two rounds (L2.5). -/
def stdX2 : Block :=
  #v[0xe76d7fff#32, 0xbfc534cd#32, 0x506743f4#32, 0x7c614cfc#32, 0x68a887ed#32, 0x717a1a2c#32,
    0x96ad8b8f#32, 0x1f3b3424#32, 0xf56d5b5d#32, 0x84994ff7#32, 0x575a0c81#32, 0xc102b604#32,
    0xad0b9ed6#32, 0xaf688b8a#32, 0xaed59ae0#32, 0xb6b0ed20#32]

/-- X after the standard case's twenty rounds (L2.5). -/
def stdX20 : Block :=
  #v[0xdaad86c6#32, 0x29b8c86e#32, 0xd2a4e303#32, 0x24e1e160#32, 0xa60f77ad#32, 0xac51ab39#32,
    0x1f85c62d#32, 0x60d97418#32, 0x34516c72#32, 0x1160797e#32, 0x94407f52#32, 0x16de8353#32,
    0x35004d12#32, 0xd468c084#32, 0x148e2b3a#32, 0x7a38bdbf#32]

/-- OUT of the standard case (L1.7). -/
def stdOut : Block :=
  #v[0x3c1dff2b#32, 0x5cd92cdc#32, 0x4c071035#32, 0x900246d4#32, 0xa91178ad#32, 0xb357b03d#32,
    0x2a8fcf35#32, 0x6fe78124#32, 0x47637d82#32, 0x28768e92#32, 0xaf5a986a#32, 0x35fca06f#32,
    0x35004d13#32, 0xd468c084#32, 0x148e2b43#32, 0x7a38be09#32]

/-- The ports of program P3's step 2, as it encodes them. -/
def stdPorts : InPorts :=
  { rst := false, start := true
    keyIn := 0x1f1e1d1c1b1a191817161514131211100f0e0d0c0b0a09080706050403020100#256
    counterIn := 0x0000000000000001#64, nonceIn := 0x0000004a00000009#64 }

/-- The state after reset, at another SEQ and with other cells. -/
def at_ (phase : BitVec 3) (rc : BitVec 5) (S X OUT : Cells) : State :=
  { State.reset with phase := phase, rc := rc, S := S, X := X, OUT := OUT }

/-- The standard case in INIT, ROUND 0, ROUND 1, FINAL and DONE. -/
def inInit : State := at_ phaseInit 0 (valued stdS) emptyCells emptyCells

def inRound0 : State := at_ phaseRound 0 (valued stdS) (valued stdS) emptyCells

def inRound1 : State := at_ phaseRound 1 (valued stdS) (valued stdX1) emptyCells

def inFinal : State := at_ phaseFinal 19 (valued stdS) (valued stdX20) emptyCells

def inDone : State := at_ phaseDone 19 (valued stdS) (valued stdX20) (valued stdOut)

/-- The next state of an outcome. -/
def nextOf (o : Host.Outcome State Fault Refusal) : Option State :=
  match o with
  | .next s => some s
  | .fault _ => none
  | .refused _ => none

def xOf (o : Host.Outcome State Fault Refusal) : Option Cells := (nextOf o).map (·.X)

def seqOf (o : Host.Outcome State Fault Refusal) : Option (BitVec 8) := (nextOf o).map (·.seq)

/-! ### Well-formedness: an ill-formed term for each check -/

theorem test_wf_refuses_seven_key_words : (Instr.block [1, 2, 3, 4, 5, 6, 7] [1, 2] [1, 2]).wf = false := by decide

theorem test_wf_refuses_one_counter_word : (Instr.block [1, 2, 3, 4, 5, 6, 7, 8] [1] [1, 2]).wf = false := by decide

theorem test_wf_refuses_three_nonce_words :
    (Instr.block [1, 2, 3, 4, 5, 6, 7, 8] [1, 2] [1, 2, 3]).wf = false := by decide

theorem test_wf_refuses_amount_33 : (Instr.rotl 1 33).wf = false := by decide

theorem test_wf_accepts_amount_32 : (Instr.rotl 1 32).wf = true := by decide

/-! ### Decoding: words written out from 30_encoding.md R71, R73, R76, R78 -/

/-- `start` = 1 with the standard case's twelve words, nonce highest (R71). -/
theorem test_decode_block :
    decode (.cmd 1#1 (0x0000004a00000009#64 ++ 0x0000000000000001#64 ++
      0x1f1e1d1c1b1a191817161514131211100f0e0d0c0b0a09080706050403020100#256)) =
    .ok (.block [0x03020100#32, 0x07060504#32, 0x0b0a0908#32, 0x0f0e0d0c#32, 0x13121110#32, 0x17161514#32,
      0x1b1a1918#32, 0x1f1e1d1c#32] [1#32, 0#32] [9#32, 0x4a#32]) := by rfl

theorem test_decode_no_command : decode (.cmd 0#1 0#384) = .error .noCommand := by rfl

theorem test_decode_holdIdle : decode (.seq 0b000_00000#8) = .ok .holdIdle := by rfl

theorem test_decode_init : decode (.seq 0b001_00000#8) = .ok .init := by rfl

theorem test_decode_roundA : decode (.seq 0b010_10010#8) = .ok .roundA := by rfl

theorem test_decode_roundB : decode (.seq 0b010_10011#8) = .ok .roundB := by rfl

theorem test_decode_final : decode (.seq 0b011_10011#8) = .ok .final := by rfl

theorem test_decode_holdDone : decode (.seq 0b100_10011#8) = .ok .holdDone := by rfl

theorem test_decode_round_20_reserved : decode (.seq 0b010_10100#8) = .error (.reservedSeq 0x54#8) := by rfl

theorem test_decode_phase_5_reserved : decode (.seq 0b101_00000#8) = .error (.reservedSeq 0xA0#8) := by rfl

theorem test_decode_qrA0 : decode (.qrsel 0b1100_1000_0100_0000#16) = .ok .qrA0 := by rfl

theorem test_decode_qrA1 : decode (.qrsel 0b1101_1001_0101_0001#16) = .ok .qrA1 := by rfl

theorem test_decode_qrA2 : decode (.qrsel 0b1110_1010_0110_0010#16) = .ok .qrA2 := by rfl

theorem test_decode_qrA3 : decode (.qrsel 0b1111_1011_0111_0011#16) = .ok .qrA3 := by rfl

theorem test_decode_qrB0 : decode (.qrsel 0b1111_1010_0101_0000#16) = .ok .qrB0 := by rfl

theorem test_decode_qrB1 : decode (.qrsel 0b1100_1011_0110_0001#16) = .ok .qrB1 := by rfl

theorem test_decode_qrB2 : decode (.qrsel 0b1101_1000_0111_0010#16) = .ok .qrB2 := by rfl

theorem test_decode_qrB3 : decode (.qrsel 0b1110_1001_0100_0011#16) = .ok .qrB3 := by rfl

/-- L2.4: "(4, 0, 8, 12) are distinct but which is not one of the eight". -/
theorem test_decode_distinct_indices_reserved :
    decode (.qrsel 0xC804#16) = .error (.reservedQrsel 0xC804#16) := by rfl

theorem test_decode_rotl : decode (.rotamt 0b010000#6 0x12345678#32) = .ok (.rotl 0x12345678#32 16) := by rfl

theorem test_decode_amount_33_reserved :
    decode (.rotamt 0b100001#6 0#32) = .error (.rotAmountOutOfDomain 33) := by rfl

/-- QR has no encoding of its own (R120). -/
theorem test_qr_has_no_encoding : encode (.qr 1 2 3 4) = none := by rfl

theorem test_encode_block :
    encode (.block [1, 0, 0, 0, 0, 0, 0, 0] [0, 0] [0, 0x80000000]) = some (.cmd 1#1 (1#384 ||| 1#384 <<< 383)) := by
  decide +kernel

theorem test_encode_final : encode .final = some (.seq 0x73#8) := by rfl

/-- The table's words (log 7). -/
theorem test_tableWord_block : decodeTableWord 8 0x01 = some (.block [0, 0, 0, 0, 0, 0, 0, 0] [0, 0] [0, 0]) := by rfl

theorem test_tableWord_qrB3 : decodeTableWord 16 0xE943 = some .qrB3 := by rfl

/-- Every row's word placed on the state after reset is run by the very next step (log 8). -/
theorem test_placed_seq_words_run :
    ∀ w ∈ [0x00, 0x01, 0x20, 0x40, 0x41, 0x60, 0x80], isNext (step (State.reset.withFetchWord 8 w)) = true := by
  decide +kernel

theorem test_placed_qrsel_words_run :
    ∀ w ∈ [0xC840, 0xD951, 0xEA62, 0xFB73, 0xFA50, 0xCB61, 0xD872, 0xE943],
      isNext (step (State.reset.withFetchWord 16 w)) = true := by decide +kernel

/-! ### The operations on the vectors of 95_test_vectors.md -/

/-- L2.1. -/
theorem test_rotl_deadbeef_31 :
    nextOf (exec (.rotl 0xdeadbeef#32 31) State.reset) = some (State.reset.setReturned [0xef56df77#32]) := by decide

/-- L2.1: "Out of domain". -/
theorem test_rotl_33_refused : exec (.rotl 1#32 33) State.reset = .refused (.rotAmountOutOfDomain 33) := by rfl

/-- L1.5, the saturation vector. -/
theorem test_qr_saturation :
    nextOf (exec (.qr 0xffffffff#32 0xffffffff#32 0xffffffff#32 0xffffffff#32) State.reset) =
      some (State.reset.setReturned [0xf0000ffd#32, 0x88790878#32, 0x0110fdef#32, 0x010ffdf0#32]) := by decide

/-- L1.4. -/
theorem test_qr_known_vector :
    nextOf (exec (.qr 0x11111111#32 0x22222222#32 0x33333333#32 0x44444444#32) State.reset) =
      some (State.reset.setReturned [0xbbbbbbbb#32, 0xffffff7f#32, 0x77777776#32, 0xcccccccc#32]) := by decide

/-- X with the words of one quad taken from another block, as the rows of L2.4 give them. -/
def patched (x y : Block) (a b c d : Fin 16) : Cells :=
  valued ((((x.set a y[a]).set b y[b]).set c y[c]).set d y[d])

/-- L2.4. -/
theorem test_qrA0 : xOf (exec .qrA0 inRound0) = some (patched stdS stdX1 0 4 8 12) := by decide +kernel

/-- L2.4. -/
theorem test_qrA1 : xOf (exec .qrA1 inRound0) = some (patched stdS stdX1 1 5 9 13) := by decide +kernel

/-- L2.4. -/
theorem test_qrA2 : xOf (exec .qrA2 inRound0) = some (patched stdS stdX1 2 6 10 14) := by decide +kernel

/-- L2.4. -/
theorem test_qrA3 : xOf (exec .qrA3 inRound0) = some (patched stdS stdX1 3 7 11 15) := by decide +kernel

/-- L2.4. -/
theorem test_qrB0 : xOf (exec .qrB0 inRound1) = some (patched stdX1 stdX2 0 5 10 15) := by decide +kernel

/-- L2.4. -/
theorem test_qrB1 : xOf (exec .qrB1 inRound1) = some (patched stdX1 stdX2 1 6 11 12) := by decide +kernel

/-- L2.4. -/
theorem test_qrB2 : xOf (exec .qrB2 inRound1) = some (patched stdX1 stdX2 2 7 8 13) := by decide +kernel

/-- L2.4. -/
theorem test_qrB3 : xOf (exec .qrB3 inRound1) = some (patched stdX1 stdX2 3 4 9 14) := by decide +kernel

/-- L2.5: after round 1; L2.10: the next SEQ. -/
theorem test_roundA : nextOf (exec .roundA inRound0) = some (at_ phaseRound 1 (valued stdS) (valued stdX1) emptyCells) := by
  decide +kernel

/-- L2.5: after round 2. -/
theorem test_roundB : nextOf (exec .roundB inRound1) = some (at_ phaseRound 2 (valued stdS) (valued stdX2) emptyCells) := by
  decide +kernel

/-- L2.10: SEQ 0x53 is followed by 0x73. -/
theorem test_last_round : seqOf (step (at_ phaseRound 19 (valued stdS) (valued stdS) emptyCells)) = some 0x73#8 := by
  decide +kernel

/-- L2.10: SEQ 0x20 is followed by 0x40, X = S. -/
theorem test_init : nextOf (exec .init inInit) = some inRound0 := by decide +kernel

/-- L2.5: OUT = X + S; L2.10: SEQ 0x73 is followed by 0x93. -/
theorem test_final : nextOf (exec .final inFinal) = some inDone := by decide +kernel

/-- L2.10: SEQ 0x00 with start = 1 is followed by 0x20, S = assemble(IB) (the S of L2.5). -/
theorem test_holdIdle_start :
    nextOf (exec .holdIdle (State.reset.drive stdPorts)) = some (inInit.drive stdPorts) := by decide +kernel

theorem test_holdIdle_holds : nextOf (exec .holdIdle State.reset) = some State.reset := by decide

/-- L2.10: SEQ 0x93 with start = 1 is followed by 0x20, OUT = ⊥. -/
theorem test_holdDone_start :
    nextOf (exec .holdDone (inDone.drive stdPorts)) =
      some ((at_ phaseInit 0 (valued stdS) (valued stdX20) emptyCells).drive stdPorts) := by decide +kernel

theorem test_holdDone_holds : nextOf (exec .holdDone inDone) = some inDone := by decide +kernel

theorem test_block_accepted :
    nextOf (exec (.block [0x03020100#32, 0x07060504#32, 0x0b0a0908#32, 0x0f0e0d0c#32, 0x13121110#32, 0x17161514#32,
      0x1b1a1918#32, 0x1f1e1d1c#32] [1#32, 0#32] [9#32, 0x4a#32]) State.reset) = some inInit := by decide +kernel

theorem test_block_malformed : exec (.block [] [1, 0] [9, 0]) State.reset = .refused .malformedInput := by rfl

/-- L2.10: SEQ 0x42 with start = 1 is followed by 0x43. -/
theorem test_start_while_busy :
    seqOf (step ((at_ phaseRound 2 (valued stdS) (valued stdX2) emptyCells).drive stdPorts)) = some 0x43#8 := by
  decide +kernel

/-- L2.10: rst = 1 and start = 1 in any state. -/
theorem test_reset_wins :
    nextOf (step (inFinal.drive { stdPorts with rst := true })) =
      some (State.reset.drive { stdPorts with rst := true }) := by decide +kernel

/-- L2.10: SEQ 0xA0 faults. -/
theorem test_reserved_seq : step (at_ 5 0 emptyCells emptyCells emptyCells) = .fault (.reservedSeq 0xA0#8) := by rfl

/-- L2.10: a host reads block_out while busy. -/
theorem test_read_while_busy : inFinal.readBlock = .error (.noValue .blockOut) := by rfl

/-- P3: block_out of the standard case. -/
theorem test_block_out : inDone.readBlockOut.toOption = some
    (0x7a38be09148e2b43d468c08435004d1335fca06faf5a986a28768e9247637d82#256 ++
      0x6fe781242a8fcf35b357b03da91178ad900246d44c0710355cd92cdc3c1dff2b#256) := by decide +kernel

/-- L1.6, the all-zero block. -/
theorem test_blockCore_zero : blockCore (Vector.replicate 8 0) #v[0, 0] #v[0, 0] =
    #v[0xade0b876#32, 0x903df1a0#32, 0xe56a5d40#32, 0x28bd8653#32, 0xb819d2bd#32, 0x1aed8da0#32,
    0xccef36a8#32, 0xc70d778b#32, 0x7c5941da#32, 0x8d485751#32, 0x3fe02477#32, 0x374ad8b8#32,
    0xf4b8436a#32, 0x1ca11815#32, 0x69b687c3#32, 0x8665eeb2#32] := by decide +kernel

/-- L1.7, the "standard test case", from its assembled State. -/
theorem test_blockOf_standard : blockOf stdS = stdOut := by decide +kernel

/-- L2.7 b, the counter's maximum value. -/
theorem test_blockCore_counter_max : blockCore (Vector.replicate 8 0) #v[0xffffffff, 0xffffffff] #v[0, 0] =
    #v[0xd88c91d7#32, 0x32f80c62#32, 0xc0522653#32, 0x53a5014c#32, 0x32fb2c09#32, 0xf5f2b3e7#32,
    0x67e97a46#32, 0xec9e2e4a#32, 0xc88e3617#32, 0x7c357a02#32, 0xeae6510c#32, 0xfe217174#32,
    0xbe8452c4#32, 0x2b9d090f#32, 0x56842833#32, 0x8976b107#32] := by decide +kernel

end Sys2Proof.Tests
end

