-- ==== Sys2Proof/Tests/Witnesses.lean ====
section
/-! SUPPORT. For every statement with hypotheses, a concrete state and operands that meet all of them together, one for
each clause and at the boundary values of its range. -/

namespace Sys2Proof.Tests

open Sys2Proof.Machine

/-! ### Encodings -/

theorem witness_DecodeOfEncode :
    encodeAt 18#5 .roundA = some (.seq 0x52#8) ∧ encodeAt 19#5 .roundB = some (.seq 0x53#8) ∧
    encodeAt 31#5 .holdIdle = some (.seq 0x1F#8) ∧ encodeAt 0#5 (.rotl 7#32 32) = some (.rotamt 32#6 7#32) ∧
    ((Instr.block [1, 2, 3, 4, 5, 6, 7, 8] [9, 10] [11, 12]).wf = true ∧
      ∀ a b c d, Instr.block [1, 2, 3, 4, 5, 6, 7, 8] [9, 10] [11, 12] ≠ .qr a b c d) :=
  ⟨rfl, rfl, rfl, rfl, rfl, nofun⟩

theorem witness_EncodeOfDecode :
    decode (.seq 0x1F#8) = .ok .holdIdle ∧ decode (.seq 0x53#8) = .ok .roundB ∧ decode (.qrsel 0xC840#16) = .ok .qrA0 ∧
    decode (.rotamt 32#6 7#32) = .ok (.rotl 7#32 32) ∧ ∃ i, decode (.cmd 1#1 (BitVec.allOnes 384)) = .ok i :=
  ⟨rfl, rfl, rfl, rfl, _, rfl⟩

/-- Both reserved ranges at their ends, and the values next to them. -/
theorem witness_ReservedSeqFaults :
    ∀ w ∈ [0xA0#8, 0xFF#8, 0x54#8, 0x5F#8, 0x53#8, 0x60#8, 0x9F#8],
      let s := at_ (seqPhase w) (seqRc w) emptyCells emptyCells emptyCells
      s.ports.rst = false ∧ s.direct = none ∧ s.seq = w := by decide

/-- A value whose four indices are distinct, and one with two equal indices. -/
theorem witness_ReservedQrselRefused :
    0xC804#16 ∉ [0xC840#16, 0xD951#16, 0xEA62#16, 0xFB73#16, 0xFA50#16, 0xCB61#16, 0xD872#16, 0xE943#16] ∧
    0xC800#16 ∉ [0xC840#16, 0xD951#16, 0xEA62#16, 0xFB73#16, 0xFA50#16, 0xCB61#16, 0xD872#16, 0xE943#16] := by
  simp

theorem witness_ReservedAmountRefused : 33 ≤ (33#6).toNat ∧ 33 ≤ (63#6).toNat := by decide

/-! ### The rotator and the quarter-round -/

theorem witness_RotlResult :
    ((0 : Nat) = 0 ∨ (0 : Nat) = 32) ∧ ((32 : Nat) = 0 ∨ (32 : Nat) = 32) ∧ ((0 : Nat) < 1 ∧ (1 : Nat) < 32) ∧
    ((0 : Nat) < 31 ∧ (31 : Nat) < 32) ∧ (32 : Nat) < 33 := by decide

theorem witness_RotlComposition : (0 < 1 ∧ 1 < 32) ∧ (0 < 31 ∧ 31 < 32) := by decide

theorem witness_RotlBitwise : (0 ≤ 32 ∧ 31 < 32) ∧ (32 ≤ 32 ∧ 0 < 32) := by decide

theorem witness_QuarterRoundOfZero :
    exec (.qr 1 2 3 4) State.reset = .next (State.reset.setReturned (match quarterRound ⟨1, 2, 3, 4⟩ with
      | ⟨a, b, c, d⟩ => [a, b, c, d])) ∧ ∃ t, exec (.qr 1 2 3 4) inDone = .next t := ⟨rfl, _, rfl⟩

theorem witness_ScheduledApplications :
    ∃ f : Four, inRound0.X[(0 : Fin 16)] = some f.a ∧ inRound0.X[(4 : Fin 16)] = some f.b ∧
      inRound0.X[(8 : Fin 16)] = some f.c ∧ inRound0.X[(12 : Fin 16)] = some f.d :=
  ⟨⟨0x61707865#32, 0x03020100#32, 0x13121110#32, 1#32⟩, by decide⟩

/-- One ⊥ cell alone meets each clause: the last word an application reads, the last of X, the last of S. -/
theorem witness_NoValueReadsFault :
    let s := at_ phaseFinal 19 ((valued stdS).set 15 none) ((valued stdS).set 15 none) emptyCells
    (∃ j ∈ [(3 : Fin 16), 7, 11, 15], s.X[j] = none) ∧ s.X[(0 : Fin 16)] ≠ none ∧ (∃ j : Fin 16, s.X[j] = none) ∧
      (∃ j : Fin 16, s.S[j] = none) ∧ ∃ j : Fin 16, s.X[j] = none ∨ s.S[j] = none := by decide +kernel

/-! ### The rounds and the block -/

/-- ROUND.A at rc 0 and 18, and a state whose X holds words, at rc 19 too (where the sequencer leaves ROUND). -/
theorem witness_RoundAResult :
    ((0#5).toNat ≤ 18 ∧ (0#5).toNat % 2 = 0) ∧ ((18#5).toNat ≤ 18 ∧ (18#5).toNat % 2 = 0) ∧
      inRound0.X = valued stdS ∧ (at_ phaseRound 19 (valued stdS) (valued stdS) emptyCells).X = valued stdS :=
  ⟨by decide, by decide, rfl, rfl⟩

theorem witness_RoundBResult :
    ((1#5).toNat ≤ 19 ∧ (1#5).toNat % 2 = 1) ∧ ((19#5).toNat ≤ 19 ∧ (19#5).toNat % 2 = 1) ∧
      inRound1.X = valued stdX1 ∧ (at_ phaseRound 19 (valued stdS) (valued stdX1) emptyCells).X = valued stdX1 :=
  ⟨by decide, by decide, rfl, rfl⟩

theorem witness_RoundOrderIsFree : quadsA.reverse.Perm quadsA ∧ quadsB.reverse.Perm quadsB := by decide

theorem witness_SequencerAppliesRound :
    ∀ rc ∈ [0#5, 18#5, 19#5],
      let s := at_ phaseRound rc (valued stdS) (valued stdX1) emptyCells
      s.ports.rst = false ∧ s.direct = none ∧ s.phase = 0b010#3 ∧ s.rc.toNat ≤ 19 ∧ s.X = valued stdX1 := by
  decide +kernel

/-- The clause on runs is met by the state after an acceptance from reset. -/
theorem witness_InitCopiesState :
    inInit.S = valued stdS ∧ Reachable (acceptPorts (State.reset.drive stdPorts)) ∧
    (acceptPorts (State.reset.drive stdPorts)).phase = 0b001#3 :=
  ⟨rfl, .step stdPorts .reset (step_hold rfl rfl rfl), rfl⟩

theorem witness_HoldTakesStartOrHolds :
    (State.reset.ports.start = false ∧ (State.reset.drive stdPorts).ports.start = true) ∧
    (State.reset.phase = 0b000#3 ∧ inDone.phase = 0b100#3) ∧ Reachable State.reset :=
  ⟨by decide, by decide, .reset⟩

/-- The standard case's operands, in IDLE and in DONE. -/
theorem witness_BlockAcceptedAtRest :
    [0x03020100#32, 0x07060504#32, 0x0b0a0908#32, 0x0f0e0d0c#32, 0x13121110#32, 0x17161514#32, 0x1b1a1918#32,
      0x1f1e1d1c#32].length = 8 ∧ [1#32, 0#32].length = 2 ∧ [9#32, 0x4a#32].length = 2 ∧
    (State.reset.ports.rst = false ∧ State.reset.phase = 0b000#3) ∧
    (inDone.ports.rst = false ∧ inDone.phase = 0b100#3) := by decide

/-- `rst` = 1; a busy state; a reserved SEQ value that is busy (0x54) and one that is not (0xA0). -/
theorem witness_BlockTurnedAway :
    (State.reset.drive { stdPorts with rst := true }).ports.rst = true ∧
    (inRound1.busy = true ∧ ∃ i, decode (.seq inRound1.seq) = .ok i) ∧
    (∀ w ∈ [0x54#8, 0xA0#8],
      (at_ (seqPhase w) (seqRc w) emptyCells emptyCells emptyCells).ports.rst = false ∧
      decodeSeq (at_ (seqPhase w) (seqRc w) emptyCells emptyCells emptyCells).seq = none) :=
  ⟨rfl, ⟨rfl, .roundB, rfl⟩, by decide⟩

theorem witness_MalformedInputRefused :
    ¬(([] : List Word).length = 8 ∧ [1#32, 0#32].length = 2 ∧ [9#32, 0x4a#32].length = 2) ∧
    [1#32, 2, 3, 4, 5, 6, 7, 8] = (#v[1#32, 2, 3, 4, 5, 6, 7, 8] : Vector Word 8).toList := by decide

/-- From IDLE and from DONE, with the ports of the standard case; the ports may go on to show `start` = 1. -/
theorem witness_BlockTransaction :
    (∃ t, step (inInit.drive stdPorts) = .next t ∧ inInit.busy = true) ∧
    (∃ t, step (State.reset.drive { stdPorts with rst := true }) = .next t) ∧
    (State.reset.phase = 0b000#3 ∧ State.reset.direct = none) ∧ (inDone.phase = 0b100#3 ∧ inDone.direct = none) ∧
    stdPorts.rst = false ∧ stdPorts.start = true ∧
    (List.replicate 22 stdPorts).length = 22 ∧ (∀ q ∈ List.replicate 22 stdPorts, q.rst = false) ∧
    ([] : List InPorts).length < 22 :=
  ⟨⟨_, step_init rfl rfl rfl rfl, rfl⟩, ⟨_, step_reset rfl⟩, by decide⟩

theorem witness_SameInputsSameBlock :
    State.reset.resting = true ∧ inDone.resting = true ∧ State.reset.direct = none ∧ inDone.direct = none ∧
    stdPorts.rst = false ∧ stdPorts.start = true ∧ (List.replicate 22 stdPorts).length = 22 ∧
    (List.replicate 22 InPorts.quiet).length = 22 ∧
    ∀ q ∈ List.replicate 22 stdPorts ++ List.replicate 22 InPorts.quiet, q.rst = false := by decide

theorem witness_CounterNeverChanged :
    State.reset.resting = true ∧ State.reset.direct = none ∧ stdPorts.rst = false ∧ stdPorts.start = true ∧
    (∀ q ∈ [InPorts.quiet], q.rst = false ∧ q.start = false) ∧
    ∃ t u, step (State.reset.drive stdPorts) = .next t ∧ runPorts [InPorts.quiet] t = .next u := by
  have h : ∃ u, step ((acceptPorts (State.reset.drive stdPorts)).drive InPorts.quiet) = .next u :=
    ⟨_, step_init rfl rfl rfl rfl⟩
  obtain ⟨u, h⟩ := h
  exact ⟨rfl, rfl, rfl, rfl, by decide, acceptPorts (State.reset.drive stdPorts), u, step_hold rfl rfl rfl,
    by simp only [runPorts, h]⟩

/-! ### Ports and reset -/

theorem witness_StatusFromPhase : State.reset.phase = 0b000#3 := by decide

theorem witness_BlockOutPort : (inDone.done = true ∧ inDone.OUT = valued stdOut) ∧ inFinal.done = false :=
  ⟨⟨rfl, rfl⟩, rfl⟩

theorem witness_DebugPort :
    (inInit.dbgValid { Config.reference with debugDump := true } = true ∧ inInit.S = valued stdS) ∧
    inInit.dbgValid Config.reference = false := ⟨⟨rfl, rfl⟩, rfl⟩

/-- Each of the three grounds, the outcomes next, fault and refused among them. -/
theorem witness_PortsHaveNoEffectUnlessAccepted :
    (∃ t, ({ stdPorts with rst := true } : InPorts).rst = true ∧
      step (inFinal.drive { stdPorts with rst := true }) = .next t) ∧
    (inInit.resting = false ∧ stdPorts.rst = InPorts.quiet.rst ∧ ∃ t, step (inInit.drive stdPorts) = .next t) ∧
    (State.reset.resting = true ∧ InPorts.quiet.start = false ∧ ∃ t, step (State.reset.drive InPorts.quiet) = .next t) ∧
    ((at_ 5 0 emptyCells emptyCells emptyCells).resting = false ∧
      step ((at_ 5 0 emptyCells emptyCells emptyCells).drive stdPorts) = .fault (.reservedSeq 0xA0#8)) ∧
    (({ inInit with direct := some (.select 0#16) } : State).resting = false ∧
      step (({ inInit with direct := some (.select 0#16) } : State).drive stdPorts) = .refused (.reservedQrsel 0#16)) :=
  ⟨⟨_, rfl, step_reset rfl⟩, ⟨rfl, rfl, _, step_init rfl rfl rfl rfl⟩,
    ⟨rfl, rfl, _, step_hold rfl rfl rfl⟩, ⟨rfl, rfl⟩, ⟨rfl, rfl⟩⟩

theorem witness_StartWhileBusyIgnoredAndResultHeld :
    (inInit.busy = true ∧ stdPorts.rst = false ∧
      ∃ t, step (inInit.drive { stdPorts with start := false }) = .next t) ∧
    (inDone.phase = 0b100#3 ∧ inDone.direct = none ∧ ∀ q ∈ [InPorts.quiet, InPorts.quiet],
      q.rst = false ∧ q.start = false) :=
  ⟨⟨rfl, rfl, _, step_init rfl rfl rfl rfl⟩, by decide⟩

theorem witness_ResetWins : (inRound1.drive { stdPorts with rst := true }).ports.rst = true := rfl

theorem witness_ResetEmptiesTheModelsFields :
    ({ inRound1 with direct := some (.select 0#16), returned := [1#32],
                     ports := { stdPorts with rst := true } } : State).ports.rst = true := rfl

theorem witness_ResetAbandonsBlock :
    ({ stdPorts with rst := true } : InPorts).rst = true ∧
    (∀ q ∈ [InPorts.quiet, { InPorts.quiet with rst := true }], q.start = false) ∧
    stdPorts.rst = false ∧ stdPorts.start = true ∧ (List.replicate 22 stdPorts).length = 22 ∧
    ∀ r ∈ List.replicate 22 stdPorts, r.rst = false := by decide

theorem witness_AcceptsAfterReset :
    ({ InPorts.quiet with rst := true } : InPorts).rst = true ∧ stdPorts.rst = false ∧ stdPorts.start = true := by
  decide

/-! ### The step and the whole machine -/

theorem witness_StepRunsDecodedSeq :
    inRound1.ports.rst = false ∧ inRound1.direct = none ∧ decode (.seq inRound1.seq) = .ok .roundB := ⟨rfl, rfl, rfl⟩

theorem witness_StepRunsDirectApplication :
    ({ inRound1 with direct := some (.select 0xD872#16) } : State).ports.rst = false ∧
    decode (.qrsel 0xD872#16) = .ok .qrB2 ∧ decode (.rotamt 32#6 5#32) = .ok (.rotl 5#32 32) ∧ 33 ≤ (33#6).toNat :=
  ⟨rfl, rfl, rfl, by decide⟩

theorem witness_StartAtRestRunsBlock :
    ∀ s ∈ [State.reset.drive stdPorts, inDone.drive stdPorts],
      s.ports.rst = false ∧ s.ports.start = true ∧ s.direct = none ∧ (s.phase = 0b000#3 ∨ s.phase = 0b100#3) := by
  decide +kernel

theorem witness_PlacedTableWordRuns :
    decodeTableWord 8 0x00 = some .holdIdle ∧ decodeTableWord 8 0x53 = some .roundB ∧
    decodeTableWord 16 0xEA62 = some .qrA2 ∧ decodeTableWord 6 32 = some (.rotl 0 32) ∧
    ∃ i, decodeTableWord 8 0x01 = some i := ⟨rfl, rfl, rfl, rfl, _, rfl⟩

/-- A reset, a reserved value, and a state of each phase; ROUND at rc 19 and below it. -/
theorem witness_ReferenceSequencerStep :
    (inRound1.drive { stdPorts with rst := true }).ports.rst = true ∧
    (∀ s ∈ [State.reset, inDone, inInit, inRound0, inRound1, inFinal], s.direct = none ∧ s.ports.rst = false) ∧
    decodeSeq (at_ 5 0 emptyCells emptyCells emptyCells).seq = none ∧
    decodeSeq State.reset.seq = some .holdIdle ∧ decodeSeq inDone.seq = some .holdDone ∧
    (decodeSeq inInit.seq = some .init ∧ inInit.S = valued stdS) ∧
    (decodeSeq inRound0.seq = some .roundA ∧ inRound0.X = valued stdS) ∧
    (decodeSeq inRound1.seq = some .roundB ∧ inRound1.X = valued stdX1) ∧
    (at_ phaseRound 19 (valued stdS) (valued stdX1) emptyCells).rc = 19#5 ∧
    (decodeSeq inFinal.seq = some .final ∧ inFinal.X = valued stdX20 ∧ inFinal.S = valued stdS) :=
  ⟨rfl, by decide +kernel, rfl, rfl, rfl, ⟨rfl, rfl⟩, ⟨rfl, rfl⟩, ⟨rfl, rfl⟩, rfl, rfl, rfl, rfl⟩

/-- After the acceptance, at both ends of ROUND, in FINAL and in DONE. -/
theorem witness_BlockPassesThroughPhases :
    State.reset.resting = true ∧ State.reset.direct = none ∧ stdPorts.rst = false ∧ stdPorts.start = true ∧
    ∀ n ∈ [0, 1, 20, 21, 22], (List.replicate n stdPorts).length ≤ 22 ∧
      ∀ q ∈ List.replicate n stdPorts, q.rst = false := by decide

/-- The State a BLOCK of the standard case assembles begins with CONST. -/
theorem stdS_hasConst : hasConst stdS := by unfold hasConst; decide

theorem inInit_inFlight : InFlight inInit stdS := ⟨stdS_hasConst, rfl, .inl ⟨rfl, rfl, rfl⟩⟩

theorem inRound0_inFlight : InFlight inRound0 stdS := ⟨stdS_hasConst, rfl, .inr (.inl ⟨rfl, by decide, rfl, rfl⟩)⟩

/-- X after twenty rounds, and the block, of the standard case (L2.5, L1.7). -/
theorem mix20_stdS : mix20 stdS = stdX20 := by decide +kernel

theorem inFinal_inFlight : InFlight inFinal stdS :=
  ⟨stdS_hasConst, rfl, .inr (.inr (.inl ⟨rfl, rfl, by rw [mix20_stdS]; rfl, rfl⟩))⟩

theorem inDone_inFlight : InFlight inDone stdS :=
  ⟨stdS_hasConst, rfl, .inr (.inr (.inr ⟨rfl, rfl, by rw [mix20_stdS]; rfl, by rw [test_blockOf_standard]; rfl⟩))⟩

/-- States of each phase meet the invariant and have a next step. -/
theorem witness_StepKeepsInvariant :
    (Inv State.reset ∧ ∃ s', step State.reset = .next s') ∧ (Inv inInit ∧ ∃ s', step inInit = .next s') ∧
    (Inv inRound0 ∧ ∃ s', step inRound0 = .next s') ∧ (Inv inFinal ∧ ∃ s', step inFinal = .next s') ∧
    (Inv inDone ∧ ∃ s', step inDone = .next s') :=
  ⟨⟨⟨rfl, .inl ⟨rfl, rfl, rfl, rfl, rfl⟩⟩, _, step_hold rfl rfl rfl⟩,
    ⟨⟨rfl, .inr ⟨stdS, inInit_inFlight⟩⟩, _, step_init rfl rfl rfl rfl⟩,
    ⟨⟨rfl, .inr ⟨stdS, inRound0_inFlight⟩⟩, _, step_round rfl rfl rfl (by decide) rfl⟩,
    ⟨⟨rfl, .inr ⟨stdS, inFinal_inFlight⟩⟩, _, step_final rfl rfl rfl rfl rfl⟩,
    ⟨⟨rfl, .inr ⟨stdS, inDone_inFlight⟩⟩, _, step_hold rfl rfl rfl⟩⟩

/-- A run from reset reaches FINAL: the invariant's transaction takes it there. -/
theorem runPorts_reachable : ∀ (ps : List InPorts) {s u : State}, Reachable s → runPorts ps s = .next u → Reachable u
  | [], s, u, h, hr => by simp only [runPorts, Host.Outcome.next.injEq] at hr; exact hr ▸ h
  | p :: ps, s, u, h, hr => by
    simp only [runPorts] at hr
    split at hr
    · exact runPorts_reachable ps (.step p h ‹_›) hr
    · cases hr
    · cases hr

theorem witness_FinalAddsState :
    (inFinal.X = valued stdX20 ∧ inFinal.S = valued stdS) ∧ ∃ s, Reachable s ∧ s.phase = 0b011#3 := by
  refine ⟨⟨rfl, rfl⟩, ?_⟩
  have h : ∃ u, runPorts (stdPorts :: List.replicate 21 InPorts.quiet) State.reset = .next u ∧ u.phase = 0b011#3 := by
    refine ⟨_, rfl, ?_⟩
    decide +kernel
  obtain ⟨u, hu, hp⟩ := h
  exact ⟨u, runPorts_reachable _ .reset hu, hp⟩

/-- A state of a run from reset: a block in flight. -/
theorem witness_StepNeverStops : Reachable State.reset ∧ Reachable (acceptPorts (State.reset.drive stdPorts)) :=
  ⟨.reset, .step stdPorts .reset (step_hold rfl rfl rfl)⟩

/-- Steps that change S and OUT (an acceptance), X (INIT) and OUT (FINAL). -/
theorem witness_WritersOfState :
    (∃ s', step (State.reset.drive stdPorts) = .next s' ∧ s'.S ≠ (State.reset.drive stdPorts).S) ∧
    (∃ s', step (inDone.drive stdPorts) = .next s' ∧ s'.OUT ≠ (inDone.drive stdPorts).OUT) ∧
    (∃ s', step inInit = .next s' ∧ s'.X ≠ inInit.X) ∧
    (∃ s', step inFinal = .next s' ∧ s'.OUT ≠ inFinal.OUT) :=
  ⟨⟨_, step_hold rfl rfl rfl, valued_ne_emptyCells _⟩, ⟨_, step_hold rfl rfl rfl, (valued_ne_emptyCells _).symm⟩,
    ⟨_, step_init rfl rfl rfl rfl, valued_ne_emptyCells _⟩,
    ⟨_, step_final rfl rfl rfl rfl rfl, valued_ne_emptyCells _⟩⟩

theorem witness_SequencerRefinesTransaction :
    Shows State.reset .idle ∧ Shows inInit (.busy 22 (blockOf stdS)) ∧ Shows inRound0 (.busy 21 (blockOf stdS)) ∧
    Shows inFinal (.busy 1 (blockOf stdS)) ∧ Shows inDone (.done (blockOf stdS)) :=
  ⟨⟨rfl, rfl, rfl, rfl, rfl, rfl⟩, ⟨rfl, stdS, inInit_inFlight, rfl, .inl ⟨rfl, rfl⟩⟩,
    ⟨rfl, stdS, inRound0_inFlight, rfl, .inr (.inl ⟨rfl, rfl⟩)⟩,
    ⟨rfl, stdS, inFinal_inFlight, rfl, .inr (.inr ⟨rfl, rfl⟩)⟩, ⟨rfl, stdS, inDone_inFlight, rfl, rfl⟩⟩

/-- LATENCY 1 with no step after the acceptance, and LATENCY 23 with 21 and with 22. -/
theorem witness_TransactionLatencyIsConstant :
    (1 ≤ 1 ∧ ([] : List InPorts).length + 1 = 1) ∧ (1 ≤ 23 ∧ (List.replicate 21 stdPorts).length + 1 < 23) ∧
    (List.replicate 22 stdPorts).length + 1 = 23 ∧ Txn.idle.isBusy = false ∧ (Txn.done stdOut).isBusy = false ∧
    stdPorts.start = true ∧ stdPorts.rst = false ∧ ∀ q ∈ List.replicate 22 stdPorts, q.rst = false := by decide

theorem witness_HostReadNeedsDone :
    (({ core := inFinal, script := [.read], seen := [] } : Bench).script = .read :: [] ∧ inFinal.done = false) ∧
    (inDone.done = true ∧ inDone.OUT = valued stdOut ∧ inDone.direct = none) := ⟨⟨rfl, rfl⟩, rfl, rfl, rfl⟩

theorem witness_HostWaitEnds : Shows inInit (.busy 22 (blockOf stdS)) ∧ Shows inFinal (.busy 1 (blockOf stdS)) :=
  ⟨witness_SequencerRefinesTransaction.2.1, witness_SequencerRefinesTransaction.2.2.2.1⟩

theorem witness_PlatformCoresShareNothing :
    ∃ Q, ({ cores := [State.reset, State.reset] } : Platform).stepCore ⟨1, by decide⟩ stdPorts = .next Q :=
  ⟨_, by simp only [Platform.stepCore]; rw [show step _ = _ from step_hold rfl rfl rfl]⟩

end Sys2Proof.Tests
end

/-! Proofs: reads of cells without a value (00_scope.md R15, 10_state.md R33). -/

namespace Sys2Proof.Machine

/-! ### Applications -/

/-- The scheduled applications are `apply` at the QRSEL of their row (R76, R122). -/
theorem exec_of_mem_qrselTable {r : Instr × BitVec 16} (hr : r ∈ qrselTable) (s : State) :
    exec r.1 s = applyQrsel r.2 s := by
  simp only [qrselTable, List.mem_cons, List.not_mem_nil, or_false] at hr
  obtain rfl | rfl | rfl | rfl | rfl | rfl | rfl | rfl := hr
  exacts [exec_qrA0 s, exec_qrA1 s, exec_qrA2 s, exec_qrA3 s, exec_qrB0 s, exec_qrB1 s, exec_qrB2 s, exec_qrB3 s]

/-- Each operation of the schedule with its index quadruple written out (R123 to R130) is a row of R76's table whose
selector has these fields. -/
theorem exists_row_of_application :
    ∀ e ∈ ([(.qrA0, ⟨0, 4, 8, 12⟩), (.qrA1, ⟨1, 5, 9, 13⟩), (.qrA2, ⟨2, 6, 10, 14⟩), (.qrA3, ⟨3, 7, 11, 15⟩),
        (.qrB0, ⟨0, 5, 10, 15⟩), (.qrB1, ⟨1, 6, 11, 12⟩), (.qrB2, ⟨2, 7, 8, 13⟩), (.qrB3, ⟨3, 4, 9, 14⟩)] :
          List (Instr × Quad)),
      ∃ r ∈ qrselTable, r.1 = e.1 ∧ quadOf r.2 = some e.2 := by
  decide

/-! ### Rounds, INIT and FINAL -/

/-- A round, whatever follows it, faults where a cell of X holds ⊥: its quads read every cell (R142). -/
theorem ofExcept_roundCells_none {qs : List Quad} (hqs : qs ∈ [quadsA, quadsB]) {x : Cells} (k : Cells → State)
    (h : ∃ j : Fin 16, x[j] = none) :
    ∃ j : Fin 16, x[j] = none ∧ ofExcept ((roundCells qs x).map k) = .fault (.noValue (.x j)) := by
  obtain ⟨hnodup, hall⟩ := quads_partition qs hqs
  obtain ⟨i, hi⟩ := h
  obtain ⟨j, -, hj, he⟩ := roundCells_none hnodup ⟨i, hall i, hi⟩
  exact ⟨j, hj, by rw [he]; rfl⟩

theorem execInit_none {s : State} {i : Fin 16} (h : s.S[i] = none) :
    ∃ j : Fin 16, s.S[j] = none ∧ execInit s = .fault (.noValue (.s j)) := by
  obtain ⟨j, hj, he⟩ := readAll_none (name := .s) h
  exact ⟨j, hj, by rw [execInit, he]; rfl⟩

theorem execFinal_none_X {s : State} {i : Fin 16} (h : s.X[i] = none) :
    ∃ j : Fin 16, s.X[j] = none ∧ execFinal s = .fault (.noValue (.x j)) := by
  obtain ⟨j, hj, he⟩ := readAll_none (name := .x) h
  exact ⟨j, hj, by rw [execFinal, he]; rfl⟩

/-- FINAL reads X first, so a ⊥ of S is named only where X holds words. -/
theorem execFinal_none_S {s : State} {x : Block} (hx : s.X = valued x) {i : Fin 16} (h : s.S[i] = none) :
    ∃ j : Fin 16, s.S[j] = none ∧ execFinal s = .fault (.noValue (.s j)) := by
  obtain ⟨j, hj, he⟩ := readAll_none (name := .s) h
  exact ⟨j, hj, by rw [execFinal, hx, readAll_valued, he]; rfl⟩

/-- Sixteen cells hold a block, or one of them holds ⊥. -/
theorem valued_or_exists_none (cells : Cells) : (∃ b, cells = valued b) ∨ ∃ i : Fin 16, cells[i] = none := by
  by_cases h : ∃ i : Fin 16, cells[i] = none
  · exact .inr h
  · have hsome : ∀ i : Fin 16, ∃ v, cells[i] = some v := fun i =>
      Option.ne_none_iff_exists'.mp fun hi => h ⟨i, hi⟩
    choose f hf using hsome
    exact .inl ⟨Vector.ofFn f, Vector.ext fun i hi => by simpa using hf ⟨i, hi⟩⟩

theorem execFinal_none {s : State} (h : ∃ j : Fin 16, s.X[j] = none ∨ s.S[j] = none) :
    (∃ j : Fin 16, s.X[j] = none ∧ execFinal s = .fault (.noValue (.x j))) ∨
    (∃ j : Fin 16, s.S[j] = none ∧ execFinal s = .fault (.noValue (.s j))) := by
  obtain ⟨x, hx⟩ | ⟨i, hi⟩ := valued_or_exists_none s.X
  · obtain ⟨j, hX | hS⟩ := h
    · exact .inl (execFinal_none_X hX)
    · exact .inr (execFinal_none_S hx hS)
  · exact .inl (execFinal_none_X hi)

/-- Settles O17: each operation that reads cells fails at the read of one that holds ⊥. -/
theorem noValueReadsFault : Obligations.NoValueReadsFault := by
  unfold Obligations.NoValueReadsFault
  refine fun s => ⟨fun e he h => ?_, fun h i hi => ?_, fun ⟨_, h⟩ => execInit_none h, execFinal_none⟩
  · obtain ⟨r, hr, hop, hquad⟩ := exists_row_of_application e he
    rw [← hop, exec_of_mem_qrselTable hr]
    exact applyQrsel_none hquad h
  · simp only [List.mem_cons, List.not_mem_nil, or_false] at hi
    obtain rfl | rfl := hi
    · exact ofExcept_roundCells_none (qs := quadsA) (by simp) _ h
    · exact ofExcept_roundCells_none (qs := quadsB) (by simp) _ h

end Sys2Proof.Machine

/-! Proofs: how long a transaction takes (00_scope.md R9, 70_reset_and_hazards.md R241). -/

namespace Sys2Proof.Machine

@[simp] theorem Txn.pending_zero (result : Block) : Txn.pending 0 result = .done result := rfl

theorem Txn.pending_of_ne_zero {left : Nat} (h : left ≠ 0) (result : Block) :
    Txn.pending left result = .busy left result := if_neg h

/-- A command at rest is accepted, from IDLE and from DONE alike (R164). -/
theorem Txn.step_of_start {t : Txn} {p : InPorts} (latency : Nat) (ht : t.isBusy = false) (hs : p.start = true)
    (hr : p.rst = false) : t.step latency p = .accept latency p := by
  cases t with
  | idle => simp [Txn.step, hr, hs]
  | busy left result => cases ht
  | done result => simp [Txn.step, hr, hs]

/-- A busy transaction counts on whatever the ports show (R165). -/
theorem Txn.step_busy {p : InPorts} (latency left : Nat) (result : Block) (hr : p.rst = false) :
    (Txn.busy left result).step latency p = .pending (left - 1) result := by
  simp [Txn.step, hr]

/-- As long as steps are left, each step of a run without a reset takes one of them. -/
theorem Txn.foldl_step_pending (latency : Nat) (result : Block) {ps : List InPorts} {left : Nat}
    (hr : ∀ q ∈ ps, q.rst = false) (hle : ps.length ≤ left) :
    ps.foldl (fun (t : Txn) q => t.step latency q) (.pending left result) = .pending (left - ps.length) result := by
  induction ps generalizing left with
  | nil => rfl
  | cons q qs ih =>
    obtain ⟨hq, hqs⟩ := List.forall_mem_cons.mp hr
    rw [List.length_cons] at hle ⊢
    rw [List.foldl_cons, pending_of_ne_zero (by omega), step_busy _ _ _ hq, ih hqs (by omega)]
    congr 1
    omega

/-- Settles O56: the acceptance leaves LATENCY - 1 steps to go, and every further step takes one. -/
theorem transactionLatencyIsConstant : Obligations.TransactionLatencyIsConstant := by
  unfold Obligations.TransactionLatencyIsConstant
  intro latency t p ps _ ht hs hr hrs hle
  have hrun : (p :: ps).foldl (fun (t : Txn) q => t.step latency q) t =
      .pending (latency - 1 - ps.length) (blockCore (portKey p) (portCounter p) (portNonce p)) := by
    rw [List.foldl_cons, Txn.step_of_start latency ht hs hr]
    exact Txn.foldl_step_pending latency _ hrs (by omega)
  simp only [hrun]
  constructor
  · intro hlt
    rw [Txn.pending_of_ne_zero (by omega)]
    exact ⟨rfl, rfl⟩
  · intro heq
    rw [show latency - 1 - ps.length = 0 by omega]
    rfl

end Sys2Proof.Machine

/-! Proofs: the invariant of the sequencer, at reset and over a step (10_state.md R26, R33, R34). -/

namespace Sys2Proof.Machine

/-! ### The invariant at reset and at an acceptance -/

theorem inv_doReset (s : State) : Inv (doReset s) := ⟨rfl, .inl ⟨rfl, rfl, rfl, rfl, rfl⟩⟩

theorem hasConst_assemble (key : Vector Word 8) (counter nonce : Vector Word 2) :
    hasConst (assemble key counter nonce) := fun i => assemble_const key counter nonce i.isLt

theorem inv_acceptPorts {s : State} (hd : s.direct = none) : Inv (acceptPorts s) :=
  ⟨hd, .inr ⟨_, hasConst_assemble _ _ _, rfl, .inl ⟨rfl, rfl, rfl⟩⟩⟩

/-- A step at rest accepts a block or changes nothing (R167, R168). -/
theorem exists_step_of_resting {s : State} (hr : s.ports.rst = false) (hs : s.resting = true) (h : Inv s) :
    ∃ t, step s = .next t ∧ Inv t := by
  refine ⟨_, step_hold hr h.1 hs, ?_⟩
  split
  · exact inv_acceptPorts h.1
  · exact h

/-! ### A block in flight -/

section InFlight

variable {s : State} {b : Block} (hc : hasConst b) (hS : s.S = valued b)
include hc hS

theorem inFlight_of_init (hrc : s.rc = 0#5) (ho : s.OUT = emptyCells) :
    InFlight { s with X := s.S, phase := phaseRound } b :=
  ⟨hc, hS, .inr (.inl ⟨rfl, by simp [hrc], by simp [hrc, hS], ho⟩)⟩

/-- After the round of index rc, X is one round further, and rc says so until the twentieth (R144, R166). -/
theorem inFlight_of_round (hp : s.phase = phaseRound) (hrc : s.rc.toNat ≤ 19) (ho : s.OUT = emptyCells) :
    InFlight (advance (s.setX (valued (roundAt s.rc.toNat (mixRounds s.rc.toNat b))))) b := by
  rw [← mixRounds_succ]
  refine ⟨hc, by simpa using hS, .inr ?_⟩
  by_cases h : s.rc = 19#5
  · exact .inr (.inl (by simp [advance_phase, advance_rc, h, ho, mix20]))
  · have hne : s.rc.toNat ≠ 19 := fun e => h (BitVec.eq_of_toNat_eq e)
    have hs : (s.rc + 1#5).toNat = s.rc.toNat + 1 := by
      rw [BitVec.toNat_add]; exact Nat.mod_eq_of_lt (by simp; omega)
    exact .inl (by simp [advance_phase, advance_rc, h, hp, ho, hs]; omega)

theorem inFlight_of_final (hrc : s.rc = 19#5) (hX : s.X = valued (mix20 b)) :
    InFlight { s with OUT := valued (addWords (mix20 b) b), phase := phaseDone } b :=
  ⟨hc, hS, .inr (.inr (.inr ⟨rfl, hrc, hX, rfl⟩))⟩

end InFlight

/-- From a state that meets the invariant a step goes on, to a state that meets it. -/
theorem exists_step_of_inv {s : State} (h : Inv s) : ∃ t, step s = .next t ∧ Inv t := by
  cases hr : s.ports.rst with
  | true => exact ⟨_, step_reset hr, inv_doReset s⟩
  | false =>
    have ⟨hd, hs⟩ := h
    obtain hidle | ⟨b, hc, hS, hphase⟩ := hs
    · exact exists_step_of_resting hr (by simp [State.resting, hidle.phase]) h
    · obtain ⟨hp, hrc, ho⟩ | ⟨hp, hrc, hX, ho⟩ | ⟨hp, hrc, hX, -⟩ | ⟨hp, -⟩ := hphase
      · exact ⟨_, step_init hr hd hp hS, hd, .inr ⟨b, inFlight_of_init hc hS hrc ho⟩⟩
      · exact ⟨_, step_round hr hd hp hrc hX, by simpa using hd, .inr ⟨b, inFlight_of_round hc hS hp hrc ho⟩⟩
      · exact ⟨_, step_final hr hd hp hX hS, hd, .inr ⟨b, inFlight_of_final hc hS hrc hX⟩⟩
      · exact exists_step_of_resting hr (by simp [State.resting, hp]) h

/-- Settles O51: the step from a state that meets the invariant is the one that keeps it. -/
theorem stepKeepsInvariant : Obligations.StepKeepsInvariant := by
  unfold Obligations.StepKeepsInvariant
  intro s s' hinv hstep
  obtain ⟨t, ht, htinv⟩ := exists_step_of_inv hinv
  rw [ht] at hstep
  cases hstep
  exact htinv

/-- Settles O50: a reset core is at rest with no value anywhere. -/
theorem invariantAtReset : Obligations.InvariantAtReset := inv_doReset State.reset

end Sys2Proof.Machine

/-! Proofs: what a step of the sequencer answers, and what it writes (10_state.md R33, R39). -/

namespace Sys2Proof.Machine

/-- A round that goes on has read a word in every cell of X (R142). -/
theorem exists_valued_of_round_next {qs : List Quad} (hqs : qs ∈ [quadsA, quadsB]) {x : Cells} {k : Cells → State}
    {t : State} (h : ofExcept ((roundCells qs x).map k) = .next t) : ∃ b, x = valued b := by
  refine (valued_or_exists_none x).resolve_right fun hnone => ?_
  obtain ⟨j, -, hf⟩ := ofExcept_roundCells_none hqs k hnone
  exact nomatch hf.symm.trans h

theorem S_valued_of_init_next {s t : State} (h : execInit s = .next t) : ∃ b, s.S = valued b := by
  refine (valued_or_exists_none s.S).resolve_right fun ⟨i, hi⟩ => ?_
  obtain ⟨j, -, hf⟩ := execInit_none hi
  exact nomatch hf.symm.trans h

theorem X_S_valued_of_final_next {s t : State} (h : execFinal s = .next t) :
    (∃ x, s.X = valued x) ∧ ∃ b, s.S = valued b := by
  have hread : ¬∃ j : Fin 16, s.X[j] = none ∨ s.S[j] = none := fun hnone => by
    obtain ⟨j, -, hf⟩ | ⟨j, -, hf⟩ := execFinal_none hnone <;> exact nomatch hf.symm.trans h
  exact ⟨(valued_or_exists_none s.X).resolve_right fun ⟨i, hi⟩ => hread ⟨i, .inl hi⟩,
    (valued_or_exists_none s.S).resolve_right fun ⟨i, hi⟩ => hread ⟨i, .inr hi⟩⟩

/-- A SEQ value that decodes, by its phase (R73). -/
theorem phase_cases_of_decodeSeq {s : State} {i : Instr} (h : decodeSeq s.seq = some i) :
    (s.resting = true ∧ (i = .holdIdle ∨ i = .holdDone)) ∨ (s.phase = phaseInit ∧ i = .init) ∨
    (s.phase = phaseRound ∧ s.rc.toNat ≤ 19 ∧ (i = .roundA ∨ i = .roundB)) ∨ (s.phase = phaseFinal ∧ i = .final) := by
  rw [State.seq, decodeSeq_packSeq] at h
  split_ifs at h with h0 h1 h2 h3 h4 h5 h6 <;> cases h
  · exact .inl ⟨by simp [State.resting, h0], .inl rfl⟩
  · exact .inr (.inl ⟨h1, rfl⟩)
  · exact .inr (.inr (.inl ⟨h2, by omega, .inr rfl⟩))
  · exact .inr (.inr (.inl ⟨h2, by omega, .inl rfl⟩))
  · exact .inr (.inr (.inr ⟨h5, rfl⟩))
  · exact .inl ⟨by simp [State.resting, h6], .inr rfl⟩

/-- The next state of a step without a reset or a direct application, phase by phase. The cells that an operation reads
hold words, or the step would have faulted (R33). -/
theorem step_next_cases {s s' : State} (hr : s.ports.rst = false) (hd : s.direct = none) (h : step s = .next s') :
    (s.resting = true ∧ s' = if s.ports.start then acceptPorts s else s) ∨
    (s.phase = phaseInit ∧ (∃ b, s.S = valued b) ∧ s' = { s with X := s.S, phase := phaseRound }) ∨
    (s.phase = phaseRound ∧ s.rc.toNat ≤ 19 ∧
      ∃ x, s.X = valued x ∧ s' = advance (s.setX (valued (roundAt s.rc.toNat x)))) ∨
    (s.phase = phaseFinal ∧
      ∃ x b, s.X = valued x ∧ s.S = valued b ∧ s' = { s with OUT := valued (addWords x b), phase := phaseDone }) := by
  cases hseq : decodeSeq s.seq with
  | none => exact nomatch (step_reserved hr hd hseq).symm.trans h
  | some i =>
    have hexec : exec i s = .next s' := (step_seq hr hd hseq).symm.trans h
    obtain ⟨hs, -⟩ | ⟨hp, rfl⟩ | ⟨hp, hrc, hi⟩ | ⟨hp, rfl⟩ := phase_cases_of_decodeSeq hseq
    · rw [step_hold hr hd hs] at h
      cases h
      exact .inl ⟨hs, rfl⟩
    · obtain ⟨b, hb⟩ := S_valued_of_init_next hexec
      rw [step_init hr hd hp hb] at h
      cases h
      exact .inr (.inl ⟨hp, ⟨b, hb⟩, rfl⟩)
    · obtain ⟨x, hx⟩ : ∃ x, s.X = valued x := by
        obtain rfl | rfl := hi
        · exact exists_valued_of_round_next (qs := quadsA) (by simp) hexec
        · exact exists_valued_of_round_next (qs := quadsB) (by simp) hexec
      rw [step_round hr hd hp hrc hx] at h
      cases h
      exact .inr (.inr (.inl ⟨hp, hrc, x, hx, rfl⟩))
    · obtain ⟨⟨x, hx⟩, b, hb⟩ := X_S_valued_of_final_next hexec
      rw [step_final hr hd hp hx hb] at h
      cases h
      exact .inr (.inr (.inr ⟨hp, x, b, hx, hb, rfl⟩))

/-- Settles O54: what each phase's step writes is read off its next state. -/
theorem writersOfState : Obligations.WritersOfState := by
  unfold Obligations.WritersOfState
  intro s s' hr hd h
  obtain ⟨hs, rfl⟩ | ⟨hp, -, rfl⟩ | ⟨hp, -, x, -, rfl⟩ | ⟨hp, x, b, -, -, rfl⟩ := step_next_cases hr hd h
  · cases hstart : s.ports.start with
    | true => simp [hs, hd]
    | false => simp [hd]
  · exact ⟨fun hne => absurd rfl hne, fun _ => .inl hp, fun hne => absurd rfl hne, rfl, hd, rfl⟩
  · simp [hd, show s.phase = 0b010#3 from hp]
  · exact ⟨fun hne => absurd rfl hne, fun hne => absurd rfl hne, fun _ => .inl hp, rfl, hd, rfl⟩

end Sys2Proof.Machine

/-! Proofs: the status bits and the output ports (10_state.md R27, R34, R36, R38). -/

namespace Sys2Proof.Machine

theorem State.busy_iff {s : State} :
    s.busy = true ↔ s.phase = phaseInit ∨ s.phase = phaseRound ∨ s.phase = phaseFinal := by
  simp [State.busy, or_assoc]

theorem State.done_iff {s : State} : s.done = true ↔ s.phase = phaseDone := by simp [State.done]

/-- Settles O34: the two status bits by their sets of phase codes, of which IDLE is in neither. -/
theorem statusFromPhase : Obligations.StatusFromPhase := by
  unfold Obligations.StatusFromPhase
  refine fun s => ⟨State.busy_iff, State.done_iff, fun hidle => ?_⟩
  constructor
  · rw [Bool.eq_false_iff, Ne, State.busy_iff, hidle]; decide
  · rw [Bool.eq_false_iff, Ne, State.done_iff, hidle]; decide

theorem State.readBlock_of_done {s : State} {y : Block} (hd : s.done = true) (ho : s.OUT = valued y) :
    s.readBlock = .ok y := by
  rw [State.readBlock, if_pos hd, ho, readAll_valued]

theorem State.readBlock_of_not_done {s : State} (hd : s.done = false) : s.readBlock = .error (.noValue .blockOut) := by
  rw [State.readBlock, if_neg (by simp [hd])]

/-- Word i of a 512-bit port is word i of the block it carries (R53). -/
theorem packBlock_word (y : Block) (i : Fin 16) : (packBlock y).extractLsb' (32 * i.val) 32 = y[i] := by
  have h := wordAt_packWords 512 y.toList i.val (by simp) (by simp)
  simpa [wordAt, packBlock] using h

/-- Settles O35: a read of `block_out` packs OUT in DONE and faults elsewhere. -/
theorem blockOutPort : Obligations.BlockOutPort := by
  unfold Obligations.BlockOutPort
  refine fun s => ⟨fun y hd ho => ⟨packBlock y, ?_, packBlock_word y⟩, fun hd => ?_⟩
  · rw [State.readBlockOut, State.readBlock_of_done hd ho]; rfl
  · rw [State.readBlockOut, State.readBlock_of_not_done hd]; rfl

/-- Outside INIT `dbg_valid` is 0 (R170), whether or not the port exists. -/
theorem State.dbgValid_of_phase_ne {s : State} (h : s.phase ≠ phaseInit) (c : Config) : s.dbgValid c = false := by
  simp [State.dbgValid, h]

/-- While `dbg_valid` is 0, `dbg_state` carries no value (R170). -/
theorem State.readDbgState_of_not_valid {s : State} {c : Config} (h : s.dbgValid c = false) :
    s.readDbgState c = .ok none := by
  rw [State.readDbgState, if_neg (by simp [h])]

/-- Settles O39: every field of the state after reset, and what it shows at the output ports. -/
theorem resetState : Obligations.ResetState := by
  unfold Obligations.ResetState
  have hempty : ∀ i : Fin 16, emptyCells[i] = none := emptyCells_getElem
  have hphase : State.reset.phase ≠ phaseInit := by decide
  refine ⟨rfl, rfl, fun i => ⟨hempty i, hempty i, hempty i⟩, rfl, rfl, fun c => ?_, rfl⟩
  have hdbg := State.dbgValid_of_phase_ne hphase c
  exact ⟨hdbg, State.readDbgState_of_not_valid hdbg⟩

end Sys2Proof.Machine

/-! Proofs: the input ports at a step that accepts nothing (10_state.md R37). -/

namespace Sys2Proof.Machine

/-- An outcome with its next state, if it has one, under other ports. -/
def driveNext (p : InPorts) : Host.Outcome State Fault Refusal → Host.Outcome State Fault Refusal
  | .next s => .next (s.drive p)
  | .fault f => .fault f
  | .refused r => .refused r

@[simp] theorem driveNext_driveNext (p q : InPorts) (o : Host.Outcome State Fault Refusal) :
    driveNext q (driveNext p o) = driveNext q o := by
  cases o <;> rfl

/-- The operations that read no port: all but BLOCK, which reads `rst`, and the rest operations, which listen to
commands. -/
def readsNoPort : Instr → Bool
  | .block _ _ _ => false
  | .holdIdle => false
  | .holdDone => false
  | _ => true

theorem advance_drive (p : InPorts) (s : State) : advance (s.drive p) = (advance s).drive p := by
  simp only [advance_eq]
  rfl

theorem ofExcept_map_drive {α : Type} (p : InPorts) (r : Except Fault α) {f g : α → State}
    (h : ∀ a, g a = (f a).drive p) : ofExcept (r.map g) = driveNext p (ofExcept (r.map f)) := by
  cases r with
  | error e => rfl
  | ok a => exact congrArg Host.Outcome.next (h a)

theorem applyQrsel_drive (w : BitVec 16) (p : InPorts) (s : State) :
    applyQrsel w (s.drive p) = driveNext p (applyQrsel w s) := by
  simp only [applyQrsel]
  cases quadOf w with
  | none => rfl
  | some q => exact ofExcept_map_drive p _ fun _ => rfl

/-- FINAL reads X and S alone. -/
theorem execFinal_drive (p : InPorts) (s : State) : execFinal (s.drive p) = driveNext p (execFinal s) := by
  simp only [execFinal, State.drive_X, State.drive_S]
  cases readAll .x s.X with
  | error f => rfl
  | ok x =>
    cases readAll .s s.S with
    | error f => rfl
    | ok b => rfl

theorem execRotl_drive (v : Word) (n : Nat) (p : InPorts) (s : State) :
    execRotl v n (s.drive p) = driveNext p (execRotl v n s) := by
  simp only [execRotl]
  split <;> rfl

/-- An operation that reads no port does the same under other ports, and leaves them as they are. -/
theorem exec_drive {i : Instr} (hi : readsNoPort i = true) (p : InPorts) (s : State) :
    exec i (s.drive p) = driveNext p (exec i s) := by
  have hround (x : Cells) : advance ((s.drive p).setX x) = (advance (s.setX x)).drive p := advance_drive p (s.setX x)
  cases i with
  | block | holdIdle | holdDone => cases hi
  | init => exact ofExcept_map_drive p (readAll .s s.S) fun _ => rfl
  | roundA => exact ofExcept_map_drive p (roundCells quadsA s.X) hround
  | roundB => exact ofExcept_map_drive p (roundCells quadsB s.X) hround
  | final => exact execFinal_drive p s
  | qrA0 | qrA1 | qrA2 | qrA3 | qrB0 | qrB1 | qrB2 | qrB3 =>
    simp only [exec_qrA0, exec_qrA1, exec_qrA2, exec_qrA3, exec_qrB0, exec_qrB1, exec_qrB2, exec_qrB3, applyQrsel_drive]
  | qr => rfl
  | rotl v n => exact execRotl_drive v n p s

/-- A step fetches an operation that reads no port, or, at rest, one of the two rest operations. -/
theorem fetch_next_cases {s : State} {i : Instr} (h : fetch s = .next i) :
    readsNoPort i = true ∨ (s.resting = true ∧ ∀ t, exec i t = hold t) := by
  unfold fetch at h
  split at h
  next =>
    split at h
    next hseq =>
      cases h
      obtain ⟨hs, rfl | rfl⟩ | ⟨-, rfl⟩ | ⟨-, -, rfl | rfl⟩ | ⟨-, rfl⟩ := phase_cases_of_decodeSeq hseq
      · exact .inr ⟨hs, fun _ => rfl⟩
      · exact .inr ⟨hs, fun _ => rfl⟩
      all_goals exact .inl rfl
    next => cases h
  next w _ =>
    split at h
    next hsel =>
      cases h
      have hrows : ∀ r ∈ qrselTable, readsNoPort r.1 = true := by decide
      exact .inl (hrows _ (decodeQrsel_some hsel))
    next => cases h
  next n v _ =>
    split at h
    next hrot =>
      cases h
      obtain ⟨-, rfl⟩ := decode_rotamt_ok.mp (by simp only [decode, hrot] : decode (.rotamt n v) = .ok i)
      exact .inl rfl
    next => cases h
  next =>
    cases h
    exact .inl rfl

/-- At rest without a command nothing changes (R167, R168). -/
theorem hold_of_not_start {s : State} (h : s.ports.start = false) : hold s = .next s := by simp [hold, h]

theorem step_of_fetch {s : State} {i : Instr} (hr : s.ports.rst = false) (h : fetch s = .next i) :
    step s = exec i s.clearDirect := by
  simp [step, hr, h]

/-- At a step that accepts nothing, other ports with the same `rst` pass through and have no other effect. -/
theorem step_drive {s : State} {p q : InPorts} (hrst : p.rst = q.rst)
    (h : p.rst = true ∨ s.resting = false ∨ (p.start = false ∧ q.start = false)) :
    step (s.drive q) = driveNext q (step (s.drive p)) := by
  cases hr : p.rst with
  | true => rw [step_reset (s := s.drive p) hr, step_reset (s := s.drive q) (hrst ▸ hr)]; rfl
  | false =>
    have hfetch (r : InPorts) : fetch (s.drive r) = fetch s := rfl
    cases hf : fetch s with
    | fault f => simp only [step, hfetch, hf, State.drive_ports, hr, ← hrst]; rfl
    | refused r => simp only [step, hfetch, hf, State.drive_ports, hr, ← hrst]; rfl
    | next i =>
      rw [step_of_fetch (s := s.drive p) hr hf, step_of_fetch (s := s.drive q) (hrst ▸ hr) hf,
        State.drive_clearDirect, State.drive_clearDirect]
      obtain hi | ⟨hs, hi⟩ := fetch_next_cases hf
      · rw [exec_drive hi, exec_drive hi, driveNext_driveNext]
      · obtain ⟨hp, hq⟩ : p.start = false ∧ q.start = false := by simpa [hr, hs] using h
        rw [hi, hi, hold_of_not_start (s := s.clearDirect.drive p) hp,
          hold_of_not_start (s := s.clearDirect.drive q) hq]
        rfl

/-- Settles O37: the outcome under the one ports, with the other ports driven on its next state, is the other's. -/
theorem portsHaveNoEffectUnlessAccepted : Obligations.PortsHaveNoEffectUnlessAccepted := by
  unfold Obligations.PortsHaveNoEffectUnlessAccepted
  intro s p q hrst h
  rw [step_drive hrst h]
  refine ⟨fun t ht => ?_, fun f hf => ?_, fun r hr => ?_⟩
  · rw [ht]; rfl
  · rw [hf]; rfl
  · rw [hr]; rfl

end Sys2Proof.Machine

/-! Proofs: the encodings, the input bundle and the selectors (30_encoding.md R71 to R77). -/

namespace Sys2Proof.Machine

/-! ### The input bundle -/

/-- The State an acceptance assembles from the ports is CONST and the twelve words of the input bundle (R71, R160). -/
theorem assemble_ports_toList (p : InPorts) :
    (assemble (portKey p) (portCounter p) (portNonce p)).toList =
      constWords.toList ++ wordsAt (inputBundle p) 0 12 := by
  obtain ⟨hkey, hcounter, hnonce⟩ := wordsAt_inputBundle p
  rw [assemble_toList, ← hkey, ← hcounter, ← hnonce, List.append_assoc, List.append_assoc,
    wordsAt_append _ 8 2 2, wordsAt_append _ 0 8 4]

theorem assemble_ports_getElem (p : InPorts) (j : Fin 12) :
    (assemble (portKey p) (portCounter p) (portNonce p))[4 + j.val] = wordAt (inputBundle p) j.val := by
  have hlist := assemble_ports_toList p
  have hword : (constWords.toList ++ wordsAt (inputBundle p) 0 12)[4 + j.val]? =
      some (wordAt (inputBundle p) j.val) := by
    rw [List.getElem?_append_right (by simp)]
    simp [wordsAt]
  rw [← hlist, Vector.getElem?_toList] at hword
  exact (Vector.getElem?_eq_some_iff.mp hword).2

/-- Settles O6: each field of the bundle is a range of its words, and the decoder's operands are all of them. -/
theorem commandBundle : Obligations.CommandBundle := by
  unfold Obligations.CommandBundle
  refine fun p => ⟨rfl, fun j => wordAt_inputBundle_key p j.isLt, fun j => ?_, fun j => ?_,
    ⟨_, _, _, decode_cmd_ok.mpr ⟨rfl, rfl⟩, ?_, by simp⟩, rfl, assemble_ports_getElem p⟩
  · have h := wordAt_inputBundle_counter p j.isLt
    rwa [wordAt, Nat.mul_add] at h
  · have h := wordAt_inputBundle_nonce p j.isLt
    rwa [wordAt, Nat.mul_add] at h
  · rw [wordsAt_append _ 0 8 2, wordsAt_append _ 0 10 2]
    simp [wordsAt, wordAt]

/-! ### SEQ and QRSEL values -/

/-- Settles O1: bit 0 of rc is its parity. -/
theorem seqDecodesByPhaseAndRound : Obligations.SeqDecodesByPhaseAndRound := by
  unfold Obligations.SeqDecodesByPhaseAndRound
  intro phase rc
  have hparity : rc.getLsbD 0 = decide (rc.toNat % 2 = 1) := Nat.testBit_zero rc.toNat
  refine ⟨seqPhase_packSeq phase rc, seqRc_packSeq phase rc, ?_⟩
  simp only [hparity, decide_eq_true_eq]
  exact decodeSeq_packSeq phase rc

/-- Settles O2: the rows of R76's table, read one by one. -/
theorem qrselTableDecodes : Obligations.QrselTableDecodes := by
  unfold Obligations.QrselTableDecodes
  simp only [decode_qrsel_ok]
  decide

theorem decode_qrsel_reserved {w : BitVec 16} (h : decodeQrsel w = none) :
    decode (.qrsel w) = .error (.reservedQrsel w) := by
  simp only [decode, h]

theorem applyQrsel_reserved {w : BitVec 16} (h : decodeQrsel w = none) (s : State) :
    applyQrsel w s = .refused (.reservedQrsel w) := by
  simp [applyQrsel, quadOf, h]

theorem quadOf_of_mem_qrselTable {r : Instr × BitVec 16} (hr : r ∈ qrselTable) :
    quadOf r.2 = some (quadFields r.2) := by
  have hrows : ∀ r ∈ qrselTable, (decodeQrsel r.2).isSome = true := by decide
  rw [quadOf, if_pos (hrows r hr)]

/-- The rounds apply the rows of R76's table, ROUND.A the first four and ROUND.B the others (R146). -/
theorem quads_eq_map : quadsA ++ quadsB = qrselTable.map fun r => quadFields r.2 := rfl

/-- Settles O8: a selector outside the eight has no row, and the quads of the rounds are the fields of the eight. -/
theorem reservedQrselRefused : Obligations.ReservedQrselRefused := by
  unfold Obligations.ReservedQrselRefused
  refine ⟨fun w s hw => ?_, fun q hq => ?_⟩
  · have hnone := decodeQrsel_eq_none hw
    exact ⟨decode_qrsel_reserved hnone, applyQrsel_reserved hnone s⟩
  · obtain ⟨r, hr, rfl⟩ := List.mem_map.mp (quads_eq_map ▸ hq)
    exact ⟨r.2, List.mem_map_of_mem (f := Prod.snd) hr, quadOf_of_mem_qrselTable hr⟩

end Sys2Proof.Machine

/-! Proofs: the SEQ values of a run from reset (30_encoding.md R74, R75). -/

namespace Sys2Proof.Machine

/-! ### The invariant along a run -/

theorem AtIdle.drive {s : State} (h : AtIdle s) (p : InPorts) : AtIdle (s.drive p) :=
  ⟨h.phase, h.rc, h.state, h.working, h.out⟩

theorem InFlight.drive {s : State} {b : Block} (h : InFlight s b) (p : InPorts) : InFlight (s.drive p) b :=
  ⟨h.const, h.state, h.phases⟩

/-- The invariant speaks of no port. -/
theorem Inv.drive {s : State} (h : Inv s) (p : InPorts) : Inv (s.drive p) :=
  ⟨h.1, h.2.imp (·.drive p) fun ⟨b, hb⟩ => ⟨b, hb.drive p⟩⟩

/-- Every state a run from reset reaches meets the invariant. -/
theorem Reachable.inv {s : State} (h : Reachable s) : Inv s := by
  induction h with
  | reset => exact invariantAtReset
  | step p _ hstep ih => exact stepKeepsInvariant _ _ (ih.drive p) hstep

/-- The invariant leaves SEQ the values of R74 only. -/
theorem Inv.reachableSeq_seq {s : State} (h : Inv s) : reachableSeq s.seq = true := by
  have hround : ∀ rc : BitVec 5, rc.toNat ≤ 19 → reachableSeq (packSeq phaseRound rc) = true := by decide
  obtain ⟨-, hidle | ⟨b, -, -, ⟨hp, hrc, -⟩ | ⟨hp, hrc, -⟩ | ⟨hp, hrc, -⟩ | ⟨hp, hrc, -⟩⟩⟩ := h
  · rw [State.seq, hidle.phase, hidle.rc]; rfl
  · rw [State.seq, hp, hrc]; rfl
  · rw [State.seq, hp]; exact hround s.rc hrc
  · rw [State.seq, hp, hrc]; rfl
  · rw [State.seq, hp, hrc]; rfl

/-! ### Reserved values -/

/-- The values without a row in R73's table are R75's two ranges. -/
theorem decodeSeq_eq_none_iff (w : BitVec 8) :
    decodeSeq w = none ↔ 0xA0#8 ≤ w ∨ (0x54#8 ≤ w ∧ w ≤ 0x5F#8) := by
  revert w; decide

theorem decodeSeq_ne_none_of_reachableSeq {w : BitVec 8} (h : reachableSeq w = true) : decodeSeq w ≠ none := by
  revert w; decide

theorem decode_seq_reserved {w : BitVec 8} (h : decodeSeq w = none) : decode (.seq w) = .error (.reservedSeq w) := by
  rw [decode_seq, h]

/-- Settles O7: the reserved values are those without an operation, and the invariant excludes them. -/
theorem reservedSeqFaults : Obligations.ReservedSeqFaults := by
  unfold Obligations.ReservedSeqFaults
  simp only [← decodeSeq_eq_none_iff]
  refine ⟨fun s hr hd => ⟨fun hnone => ⟨decode_seq_reserved hnone, step_reserved hr hd hnone⟩, fun hne => ?_⟩,
    fun s hs => decodeSeq_ne_none_of_reachableSeq hs.inv.reachableSeq_seq⟩
  obtain ⟨i, hi⟩ := Option.ne_none_iff_exists'.mp hne
  exact ⟨i, decode_seq_ok.mpr hi⟩

/-! ### A run through every phase -/

theorem toNat_rc_add_one {rc : BitVec 5} (h : rc.toNat ≤ 19) : (rc + 1#5).toNat = rc.toNat + 1 := by bv_omega

/-- From a busy state of a run the next one is reached, where the sequencer stands as R166 says. -/
theorem Reachable.exists_next {s : State} (h : Reachable s) :
    ∃ t, Reachable t ∧ (s.phase = phaseInit → t.phase = phaseRound ∧ t.rc = s.rc) ∧
      (s.phase = phaseRound → t.phase = (advance s).phase ∧ t.rc = (advance s).rc) ∧
      (s.phase = phaseFinal → t.phase = phaseDone ∧ t.rc = s.rc) := by
  have hinv : Inv (s.drive InPorts.quiet) := h.inv.drive _
  obtain ⟨t, ht, -⟩ := exists_step_of_inv hinv
  refine ⟨t, .step InPorts.quiet h ht, ?_⟩
  obtain ⟨hrest, -⟩ | ⟨hp, -, rfl⟩ | ⟨hp, -, x, -, rfl⟩ | ⟨hp, x, b, -, -, rfl⟩ := step_next_cases rfl hinv.1 ht
  · have hp : s.phase = phaseIdle ∨ s.phase = phaseDone := by simpa [State.resting] using hrest
    obtain hp | hp := hp <;> rw [hp] <;> exact ⟨nofun, nofun, nofun⟩
  · rw [show s.phase = phaseInit from hp]
    exact ⟨fun _ => ⟨rfl, rfl⟩, nofun, nofun⟩
  · rw [show s.phase = phaseRound from hp]
    exact ⟨nofun, fun _ => ⟨by simp only [advance_phase]; rfl, by simp only [advance_rc]; rfl⟩, nofun⟩
  · rw [show s.phase = phaseFinal from hp]
    exact ⟨nofun, nofun, fun _ => ⟨rfl, rfl⟩⟩

theorem exists_reachable_init : ∃ s, Reachable s ∧ s.phase = phaseInit ∧ s.rc = 0#5 :=
  ⟨_, .step { InPorts.quiet with start := true } .reset (step_hold rfl rfl rfl), rfl, rfl⟩

/-- Each of the twenty rounds is reached, one after the other. -/
theorem exists_reachable_round {n : Nat} (hn : n ≤ 19) :
    ∃ s, Reachable s ∧ s.phase = phaseRound ∧ s.rc.toNat = n := by
  induction n with
  | zero =>
    obtain ⟨s, hs, hp, hrc⟩ := exists_reachable_init
    obtain ⟨t, ht, hinit, -⟩ := hs.exists_next
    obtain ⟨htp, htrc⟩ := hinit hp
    exact ⟨t, ht, htp, by rw [htrc, hrc]; rfl⟩
  | succ n ih =>
    obtain ⟨s, hs, hp, hrc⟩ := ih (by omega)
    obtain ⟨t, ht, -, hround, -⟩ := hs.exists_next
    have hne : s.rc ≠ 19#5 := by bv_omega
    obtain ⟨htp, htrc⟩ := hround hp
    rw [advance_phase, if_neg hne] at htp
    rw [advance_rc, if_neg hne] at htrc
    exact ⟨t, ht, htp.trans hp, by rw [htrc, toNat_rc_add_one (by omega), hrc]⟩

theorem exists_reachable_final : ∃ s, Reachable s ∧ s.phase = phaseFinal ∧ s.rc = 19#5 := by
  obtain ⟨s, hs, hp, hrc⟩ := exists_reachable_round (le_refl 19)
  have hlast : s.rc = 19#5 := BitVec.eq_of_toNat_eq hrc
  obtain ⟨t, ht, -, hround, -⟩ := hs.exists_next
  obtain ⟨htp, htrc⟩ := hround hp
  rw [advance_phase, if_pos hlast] at htp
  rw [advance_rc, if_pos hlast] at htrc
  exact ⟨t, ht, htp, htrc.trans hlast⟩

theorem exists_reachable_done : ∃ s, Reachable s ∧ s.phase = phaseDone ∧ s.rc = 19#5 := by
  obtain ⟨s, hs, hp, hrc⟩ := exists_reachable_final
  obtain ⟨t, ht, -, -, hfinal⟩ := hs.exists_next
  obtain ⟨htp, htrc⟩ := hfinal hp
  exact ⟨t, ht, htp, htrc.trans hrc⟩

theorem reachableSeq_iff (w : BitVec 8) :
    reachableSeq w = true ↔
      w = 0x00#8 ∨ w = 0x20#8 ∨ (0x40#8 ≤ w ∧ w ≤ 0x53#8) ∨ w = 0x73#8 ∨ w = 0x93#8 := by
  simp [reachableSeq, or_assoc]

/-- The SEQ values 0x40 to 0x53 are those of the twenty rounds (R74). -/
theorem seq_round_fields {w : BitVec 8} (h : 0x40#8 ≤ w ∧ w ≤ 0x53#8) :
    seqPhase w = phaseRound ∧ (seqRc w).toNat ≤ 19 := by
  revert w; decide

/-- Settles O53: the invariant allows no other value, and one block passes through each of them. -/
theorem reachableSeqValues : Obligations.ReachableSeqValues := by
  unfold Obligations.ReachableSeqValues
  refine fun w => ⟨fun ⟨s, hs, hw⟩ => (reachableSeq_iff w).mp (hw ▸ hs.inv.reachableSeq_seq), ?_⟩
  rintro (rfl | rfl | hround | rfl | rfl)
  · exact ⟨State.reset, .reset, rfl⟩
  · obtain ⟨s, hs, hp, hrc⟩ := exists_reachable_init
    exact ⟨s, hs, by rw [State.seq, hp, hrc]; rfl⟩
  · obtain ⟨hphase, hle⟩ := seq_round_fields hround
    obtain ⟨s, hs, hp, hrc⟩ := exists_reachable_round hle
    exact ⟨s, hs, by rw [State.seq, hp, BitVec.eq_of_toNat_eq hrc, ← hphase, packSeq_fields]⟩
  · obtain ⟨s, hs, hp, hrc⟩ := exists_reachable_final
    exact ⟨s, hs, by rw [State.seq, hp, hrc]; rfl⟩
  · obtain ⟨s, hs, hp, hrc⟩ := exists_reachable_done
    exact ⟨s, hs, by rw [State.seq, hp, hrc]; rfl⟩

end Sys2Proof.Machine

/-! Proofs: the host's READ and WAIT (30_encoding.md R83, 70_reset_and_hazards.md R235). -/

namespace Sys2Proof.Machine

/-! ### READ -/

/-- A core that holds its result and sees neither a command nor a reset stays as it is (R168). -/
theorem step_released_of_done {s : State} (hd : s.direct = none) (hdone : s.done = true) :
    step (s.drive s.ports.released) = .next (s.drive s.ports.released) := by
  have hrest : (s.drive s.ports.released).resting = true := by simp [State.resting, State.done_iff.mp hdone]
  exact step_hold (s := s.drive s.ports.released) rfl hd hrest

section Read

variable {b : Bench} {rest : List HostAction} (h : b.script = .read :: rest)
include h

/-- READ reads the block of the state before its step, and then the core takes its step (R83). -/
theorem Bench.step_read_ok {y : Block} (hread : b.core.readBlock = .ok y) :
    b.step = b.stepWith b.core.ports.released rest (b.seen ++ [y]) := by
  simp [Bench.step, h, nextAction, HostAction.ports, hread]

theorem Bench.step_read_error {f : Fault} (hread : b.core.readBlock = .error f) : b.step = .fault f := by
  simp [Bench.step, h, nextAction, hread]

end Read

/-- Settles O57: the read comes first and decides, and a core in DONE holds. -/
theorem hostReadNeedsDone : Obligations.HostReadNeedsDone := by
  unfold Obligations.HostReadNeedsDone
  refine fun b rest hscript => ⟨fun hd => ?_, fun y hdone hout hd => ?_⟩
  · exact Bench.step_read_error hscript (State.readBlock_of_not_done hd)
  · rw [Bench.step_read_ok hscript (State.readBlock_of_done hdone hout), Bench.stepWith,
      step_released_of_done hd hdone]

/-! ### What a block in flight leaves to go -/

section InFlight

variable {s : State} {b : Block} (h : InFlight s b)
include h

theorem InFlight.of_init (hp : s.phase = phaseInit) : s.rc = 0#5 ∧ s.OUT = emptyCells := by
  simpa [hp, phaseInit, phaseRound, phaseFinal, phaseDone] using h.phases

theorem InFlight.of_round (hp : s.phase = phaseRound) :
    s.rc.toNat ≤ 19 ∧ s.X = valued (mixRounds s.rc.toNat b) ∧ s.OUT = emptyCells := by
  simpa [hp, phaseInit, phaseRound, phaseFinal, phaseDone] using h.phases

theorem InFlight.of_final (hp : s.phase = phaseFinal) :
    s.rc = 19#5 ∧ s.X = valued (mix20 b) ∧ s.OUT = emptyCells := by
  simpa [hp, phaseInit, phaseRound, phaseFinal, phaseDone] using h.phases

theorem InFlight.of_done (hp : s.phase = phaseDone) :
    s.rc = 19#5 ∧ s.X = valued (mix20 b) ∧ s.OUT = valued (blockOf b) := by
  simpa [hp, phaseInit, phaseRound, phaseFinal, phaseDone] using h.phases

end InFlight

/-- What a state shows does not depend on its input ports. -/
theorem Shows.drive {s : State} {t : Txn} (h : Shows s t) (p : InPorts) : Shows (s.drive p) t := by
  obtain ⟨hd, ht⟩ := h
  refine ⟨hd, ?_⟩
  cases t with
  | idle => exact AtIdle.drive ht p
  | busy left result =>
    obtain ⟨b, hb, hrest⟩ := ht
    exact ⟨b, hb.drive p, hrest⟩
  | done result =>
    obtain ⟨b, hb, hrest⟩ := ht
    exact ⟨b, hb.drive p, hrest⟩

theorem Shows.left_ne_zero {s : State} {left : Nat} {result : Block} (h : Shows s (.busy left result)) : left ≠ 0 := by
  obtain ⟨-, b, hb, -, ⟨-, hleft⟩ | ⟨hp, hleft⟩ | ⟨-, hleft⟩⟩ := h
  · omega
  · obtain ⟨hrc, -⟩ := hb.of_round hp
    omega
  · omega

theorem Shows.not_done {s : State} {left : Nat} {result : Block} (h : Shows s (.busy left result)) : s.done = false := by
  obtain ⟨-, b, -, -, ⟨hp, -⟩ | ⟨hp, -⟩ | ⟨hp, -⟩⟩ := h <;> rw [State.done, hp] <;> rfl

/-- A busy core's step without a reset leaves one step less to go (R165, R166). -/
theorem Shows.exists_step {s : State} {left : Nat} {result : Block} (h : Shows s (.busy left result))
    (hr : s.ports.rst = false) : ∃ t, step s = .next t ∧ Shows t (.pending (left - 1) result) := by
  obtain ⟨hd, b, hb, rfl, hleft⟩ := h
  obtain ⟨hp, rfl⟩ | ⟨hp, rfl⟩ | ⟨hp, rfl⟩ := hleft
  · obtain ⟨hrc, hout⟩ := hb.of_init hp
    exact ⟨_, step_init hr hd hp hb.state, hd, b, inFlight_of_init hb.const hb.state hrc hout, rfl,
      .inr (.inl ⟨rfl, by simp [hrc]⟩)⟩
  · obtain ⟨hrc, hX, hout⟩ := hb.of_round hp
    have hnext := inFlight_of_round hb.const hb.state hp hrc hout
    refine ⟨_, step_round hr hd hp hrc hX, ?_⟩
    rw [Txn.pending_of_ne_zero (by omega)]
    refine ⟨by simpa using hd, b, hnext, rfl, .inr ?_⟩
    by_cases hlast : s.rc = 19#5
    · exact .inr ⟨by simp [advance_phase, hlast], by simp [hlast]⟩
    · refine .inl ⟨by simp [advance_phase, hlast, hp], ?_⟩
      rw [advance_rc, State.setX_rc, if_neg hlast, toNat_rc_add_one hrc]
      omega
  · obtain ⟨hrc, hX, -⟩ := hb.of_final hp
    exact ⟨_, step_final hr hd hp hX hb.state, hd, b, inFlight_of_final hb.const hb.state hrc hX, rfl, rfl⟩

/-! ### WAIT -/

/-- A WAIT that is not met takes one step of the core and stays at the head of the script (R83). -/
theorem Bench.step_wait {s t : State} (hd : s.done = false) (hstep : Machine.step (s.drive s.ports.released) = .next t)
    (rest : List HostAction) (seen : List Block) :
    Bench.step { core := s, script := .wait :: rest, seen := seen } =
      .next { core := t, script := .wait :: rest, seen := seen } := by
  simp [Bench.step, nextAction, hd, Bench.stepWith, HostAction.ports, hstep]

/-- As many steps of waiting as are to go end in DONE, with the host's part as it was. -/
theorem Bench.run_wait {left : Nat} {s : State} {result : Block} (h : Shows s (.pending left result))
    (rest : List HostAction) (seen : List Block) :
    ∃ t, Bench.run left { core := s, script := .wait :: rest, seen := seen } =
        .next { core := t, script := .wait :: rest, seen := seen } ∧ Shows t (.done result) := by
  induction left generalizing s with
  | zero => exact ⟨s, rfl, h⟩
  | succ left ih =>
    have hbusy : Shows s (.busy (left + 1) result) := h
    obtain ⟨u, hu, hshows⟩ := (hbusy.drive s.ports.released).exists_step rfl
    obtain ⟨t, hrun, ht⟩ := ih hshows
    exact ⟨t, by rw [Bench.run, Bench.step_wait hbusy.not_done hu]; exact hrun, ht⟩

/-- Settles O58: each step of waiting takes one of the steps that are left. -/
theorem hostWaitEnds : Obligations.HostWaitEnds := by
  unfold Obligations.HostWaitEnds
  intro s left result rest seen h
  have hpending : Shows s (.pending left result) := by rwa [Txn.pending_of_ne_zero h.left_ne_zero]
  obtain ⟨t, hrun, -, b, hb, rfl, hp⟩ := Bench.run_wait hpending rest seen
  have hdone : t.done = true := State.done_iff.mpr hp
  obtain ⟨-, -, hout⟩ := hb.of_done hp
  exact ⟨_, hrun, hdone, State.readBlock_of_done hdone hout, rfl, rfl⟩

end Sys2Proof.Machine

/-! Proofs: the rotator (41_rotator.md R100 to R104, 30_encoding.md R79). -/

namespace Sys2Proof.Machine

/-! ### The rotation, by its amount -/

@[simp] theorem rotl_zero (v : Word) : rotl v 0 = v := rfl

@[simp] theorem rotl_width (v : Word) : rotl v 32 = v := rfl

/-- The end amounts of the domain (R100, R101). -/
theorem rotl_of_end {n : Nat} (h : n = 0 ∨ n = 32) (v : Word) : rotl v n = v := if_pos h

/-- Strictly inside the domain the result is the or of the two shifts (R100). -/
theorem rotl_of_inside {n : Nat} (hpos : 0 < n) (hlt : n < 32) (v : Word) :
    rotl v n = v <<< n ||| v >>> (32 - n) :=
  if_neg (by omega)

/-- On its whole domain ROTL is the rotation by the amount mod 32 (R104). -/
theorem rotl_eq_rotateLeft {n : Nat} (h : n ≤ 32) (v : Word) : rotl v n = v.rotateLeft (n % 32) := by
  obtain hend | ⟨hpos, hlt⟩ : (n = 0 ∨ n = 32) ∨ (0 < n ∧ n < 32) := by omega
  · have hmod : n % 32 = 0 := by omega
    have hout : v >>> 32 = 0#32 := BitVec.ushiftRight_eq_zero le_rfl
    rw [rotl_of_end hend, hmod, BitVec.rotateLeft_def]
    simp [hout]
  · rw [rotl_of_inside hpos hlt, BitVec.rotateLeft_def, Nat.mod_mod, Nat.mod_eq_of_lt hlt]

/-- Bit `k` of the result is bit `(k - n) mod 32` of the value (R104). -/
theorem getLsbD_rotl {n k : Nat} (hn : n ≤ 32) (hk : k < 32) (v : Word) :
    (rotl v n).getLsbD k = v.getLsbD ((k + 32 - n) % 32) := by
  rw [rotl_eq_rotateLeft hn, BitVec.getLsbD_rotateLeft, Nat.mod_mod, Bool.cond_decide]
  split_ifs with hlow
  · congr 1
    omega
  · rw [decide_eq_true hk, Bool.true_and]
    congr 1
    omega

/-- Settles O12: bit `k` comes from bit `k + n`, and that one from bit `k` of the value, both mod 32. -/
theorem rotlComposition : Obligations.RotlComposition := by
  unfold Obligations.RotlComposition
  intro v n hpos hlt
  refine BitVec.eq_of_getLsbD_eq fun k hk => ?_
  have hback : ((k + 32 - (32 - n)) % 32 + 32 - n) % 32 = k := by omega
  rw [getLsbD_rotl (by omega) hk, getLsbD_rotl hlt.le (Nat.mod_lt _ (by decide)), hback]

/-- Settles O13: the rotation by the amount mod 32, and its bits. -/
theorem rotlBitwise : Obligations.RotlBitwise := by
  unfold Obligations.RotlBitwise
  exact fun v n hn => ⟨rotl_eq_rotateLeft hn v, fun k hk => getLsbD_rotl hn hk v⟩

/-- Settles O11: the end amounts return the value. -/
theorem rotlIdentity : Obligations.RotlIdentity := by
  unfold Obligations.RotlIdentity
  exact fun v => ⟨rotl_zero v, rotl_width v⟩

/-! ### ROTL and its ROTAMT -/

theorem exec_rotl (v : Word) (n : Nat) (s : State) : exec (.rotl v n) s = execRotl v n s := rfl

theorem exec_rotl_of_le {n : Nat} (h : n ≤ 32) (v : Word) (s : State) :
    exec (.rotl v n) s = .next (s.setReturned [rotl v n]) := by
  rw [exec_rotl, execRotl, if_neg (by omega)]

theorem exec_rotl_of_gt {n : Nat} (h : 32 < n) (v : Word) (s : State) :
    exec (.rotl v n) s = .refused (.rotAmountOutOfDomain n) := by
  rw [exec_rotl, execRotl, if_pos h]

theorem decode_rotamt_reserved {n : BitVec 6} (h : 32 < n.toNat) (v : Word) :
    decode (.rotamt n v) = .error (.rotAmountOutOfDomain n.toNat) := by
  rw [decode, decodeRotamt, if_neg (by omega)]

/-- The six bits of a ROTAMT carry every amount of the domain (R78). -/
theorem decode_rotamt_ofNat {n : Nat} (h : n ≤ 32) (v : Word) :
    decode (.rotamt (BitVec.ofNat 6 n) v) = .ok (.rotl v n) := by
  have hbits : (BitVec.ofNat 6 n).toNat = n := by rw [BitVec.toNat_ofNat]; omega
  exact decode_rotamt_ok.mpr ⟨hbits.le.trans h, by rw [hbits]⟩

/-- Settles O9: an amount above 32 is refused by the decoder and by ROTL alike. -/
theorem reservedAmountRefused : Obligations.ReservedAmountRefused := by
  unfold Obligations.ReservedAmountRefused
  exact fun n v s h => ⟨decode_rotamt_reserved h v, exec_rotl_of_gt h v s⟩

/-- Settles O10: the ends, the amounts between them, the refused amounts, and the encoding. -/
theorem rotlResult : Obligations.RotlResult := by
  unfold Obligations.RotlResult
  refine fun v n s => ⟨fun hend => ?_, fun hpos hlt => ?_, fun hgt => exec_rotl_of_gt hgt v s,
    fun hle => decode_rotamt_ofNat hle v⟩
  · rw [exec_rotl_of_le (by omega), rotl_of_end hend]
    rfl
  · rw [exec_rotl_of_le hlt.le, rotl_of_inside hpos hlt]
    rfl

end Sys2Proof.Machine

/-! Proofs: the quarter-round and its scheduled applications (42_quarter_round.md R120 to R131). -/

namespace Sys2Proof.Machine

/-! ### QR on four words -/

/-- QR (R120) returns the quarter-round of its words and changes nothing else. -/
theorem exec_qr (a b c d : Word) (s : State) :
    exec (.qr a b c d) s = .next (s.setReturned [(quarterRound ⟨a, b, c, d⟩).a, (quarterRound ⟨a, b, c, d⟩).b,
      (quarterRound ⟨a, b, c, d⟩).c, (quarterRound ⟨a, b, c, d⟩).d]) := rfl

/-- Settles O14: each of the four rotations is strictly inside ROTL's domain, so it is the or of two shifts. -/
theorem quarterRoundResult : Obligations.QuarterRoundResult := by
  unfold Obligations.QuarterRoundResult
  intro a b c d s a1 d1 d2 c1 b1 b2 a2 d3 d4 c2 b3 b4
  have hqr : quarterRound ⟨a, b, c, d⟩ = ⟨a2, b4, c2, d4⟩ := by
    simp (disch := decide) only [quarterRound, add32, rotl_of_inside]
    rfl
  refine ⟨hqr, ?_, fun rc => rfl⟩
  rw [exec_qr, hqr]
  rfl

theorem quarterRound_zero : quarterRound ⟨0, 0, 0, 0⟩ = ⟨0, 0, 0, 0⟩ := by decide

/-- Settles O15: what QR returns is the quarter-round of its words, of the state nothing enters it. -/
theorem quarterRoundOfZero : Obligations.QuarterRoundOfZero := by
  unfold Obligations.QuarterRoundOfZero
  refine ⟨fun s => ?_, fun a b c d s t s' t' hs ht => ?_⟩
  · rw [exec_qr, quarterRound_zero]
    rfl
  · rw [exec_qr] at hs ht
    cases hs
    cases ht
    simp only [State.setReturned_returned]

/-! ### The scheduled applications -/

theorem encode_of_mem_qrselTable : ∀ r ∈ qrselTable, encode r.1 = some (.qrsel r.2) := by decide

/-- The four indices of an admitted QRSEL value are distinct (R122). -/
theorem indices_quadFields_nodup {r : Instr × BitVec 16} (hr : r ∈ qrselTable) :
    (indices (quadFields r.2)).Nodup :=
  indices_nodup (List.mem_append.mp (quads_eq_map ▸ List.mem_map_of_mem (f := fun r => quadFields r.2) hr))

/-- Of four writes to distinct cells none overwrites another. -/
theorem getElem_set_of_indices_nodup {q : Quad} (h : (indices q).Nodup) (x : Cells) (a b c d : Option Word) :
    let y := (((x.set q.ia a).set q.ib b).set q.ic c).set q.id d
    y[q.ia] = a ∧ y[q.ib] = b ∧ y[q.ic] = c ∧ y[q.id] = d := by
  simp only [indices, List.nodup_cons, List.mem_cons, List.not_mem_nil, or_false, not_or] at h
  obtain ⟨⟨ab, ac, ad⟩, ⟨bc, bd⟩, cd, -⟩ := h
  have hne : ∀ {k l : Fin 16}, k ≠ l → l.val ≠ k.val := fun h e => h (Fin.ext e.symm)
  simp [hne ab, hne ac, hne ad, hne bc, hne bd, hne cd]

/-- Settles O16: the application at the row's QRSEL, whose four indices are distinct. -/
theorem scheduledApplications : Obligations.ScheduledApplications := by
  unfold Obligations.ScheduledApplications
  intro e he
  obtain ⟨hdecode, hquad⟩ := qrselTableDecodes e he
  have hrow : (e.1, e.2.1) ∈ qrselTable := decodeQrsel_some (decode_qrsel_ok.mp hdecode)
  have hnodup : (indices e.2.2).Nodup := by
    rw [← Option.some.inj ((quadOf_of_mem_qrselTable hrow).symm.trans hquad)]
    exact indices_quadFields_nodup hrow
  refine ⟨encode_of_mem_qrselTable _ hrow, fun s f ha hb hc hd => ?_⟩
  obtain ⟨hya, hyb, hyc, hyd⟩ := getElem_set_of_indices_nodup hnodup s.X (some (quarterRound f).a)
    (some (quarterRound f).b) (some (quarterRound f).c) (some (quarterRound f).d)
  refine ⟨_, (exec_of_mem_qrselTable hrow s).trans (applyQrsel_some hquad ha hb hc hd), hya, hyb, hyc, hyd,
    fun j ja jb jc jd => applyQuad_frame (applyQuad_some ha hb hc hd) ?_⟩
  simp [indices, ja, jb, jc, jd]

end Sys2Proof.Machine

/-! Proofs: the rounds, their schedule and their lanes (43_round_mixer.md R140 to R145). -/

namespace Sys2Proof.Machine

/-! ### A round and the advance -/

theorem exec_roundA (s : State) : exec .roundA s = execRoundA s := rfl

theorem exec_roundB (s : State) : exec .roundB s = execRoundB s := rfl

/-- A round's new X and its advance as one update (R166). -/
theorem advance_setX (s : State) (x : Cells) :
    advance (s.setX x) = { s with X := x, phase := if s.rc = 19#5 then phaseFinal else s.phase,
                                  rc := if s.rc = 19#5 then s.rc else s.rc + 1#5 } :=
  advance_eq (s.setX x)

theorem decode_roundA {rc : BitVec 5} (hle : rc.toNat ≤ 18) (heven : rc.toNat % 2 = 0) :
    decode (.seq (packSeq phaseRound rc)) = .ok .roundA := by
  rw [decode_seq_ok, decodeSeq_round, if_neg (by omega), if_neg (by omega)]

theorem decode_roundB {rc : BitVec 5} (hle : rc.toNat ≤ 19) (hodd : rc.toNat % 2 = 1) :
    decode (.seq (packSeq phaseRound rc)) = .ok .roundB := by
  rw [decode_seq_ok, decodeSeq_round, if_neg (by omega), if_pos hodd]

/-- Each quad of a round becomes QR of what it was (R140, R141). -/
theorem fourAt_roundWords_of_round {qs : List Quad} (hqs : qs ∈ [quadsA, quadsB]) (x : Block) :
    ∀ q ∈ qs, fourAt q (roundWords qs x) = quarterRound (fourAt q x) :=
  fun _ hq => fourAt_roundWords (quads_partition qs hqs).1 x hq

/-- A round is the only block in which each of its quads is QR of what it was. -/
theorem eq_roundWords {qs : List Quad} (hqs : qs ∈ [quadsA, quadsB]) {x y : Block}
    (h : ∀ q ∈ qs, fourAt q y = quarterRound (fourAt q x)) : y = roundWords qs x :=
  eq_of_fourAt (quads_partition qs hqs).2 fun q hq =>
    (h q hq).trans (fourAt_roundWords_of_round hqs x q hq).symm

/-- Settles O18: the column-like quads are ROUND.A's, and they share no index. -/
theorem roundAResult : Obligations.RoundAResult := by
  unfold Obligations.RoundAResult
  refine ⟨fun rc => decode_roundA, fun s x hx => ⟨roundAWords x, ?_, ?_⟩⟩
  · rw [exec_roundA, execRoundA_valued hx, advance_setX]
    rfl
  · rw [← quadsA_eq]
    exact fourAt_roundWords_of_round (by simp) x

/-- Settles O19: the diagonal-like quads are ROUND.B's, and they share no index. -/
theorem roundBResult : Obligations.RoundBResult := by
  unfold Obligations.RoundBResult
  refine ⟨fun rc => decode_roundB, fun s x hx => ⟨roundBWords x, ?_, ?_⟩⟩
  · rw [exec_roundB, execRoundB_valued hx, advance_setX]
    rfl
  · rw [← quadsB_eq]
    exact fourAt_roundWords_of_round (by simp) x

/-- Settles O24: a step in ROUND is round rc and the advance, and rc is 19 exactly at the last round, which is odd. -/
theorem sequencerAppliesRound : Obligations.SequencerAppliesRound := by
  unfold Obligations.SequencerAppliesRound
  intro s x hr hd hp hrc hx
  rw [step_round hr hd hp hrc hx, advance_setX]
  by_cases hlast : s.rc = 19#5
  · simp [hlast, roundAt, phaseFinal]
  · have hne : s.rc.toNat ≠ 19 := fun h => hlast (BitVec.eq_of_toNat_eq h)
    simp [hlast, hne, roundAt]

/-! ### The order of a round's applications (R142) -/

theorem indices_perm_finRange {qs : List Quad} (hqs : qs ∈ [quadsA, quadsB]) :
    (qs.flatMap indices).Perm (List.finRange 16) := by
  obtain ⟨hnodup, hall⟩ := quads_partition qs hqs
  exact (List.perm_ext_iff_of_nodup hnodup (List.nodup_finRange 16)).mpr fun j => by simp [hall j]

/-- Applications in another order make each quad QR of what it was as well. -/
theorem roundWords_perm {l qs : List Quad} (hqs : qs ∈ [quadsA, quadsB]) (hl : l.Perm qs) (x : Block) :
    roundWords l x = roundWords qs x := by
  have hnodup : (l.flatMap indices).Nodup := (hl.flatMap_right indices).nodup_iff.mpr (quads_partition qs hqs).1
  exact eq_roundWords hqs fun q hq => fourAt_roundWords hnodup x (hl.mem_iff.mpr hq)

/-- Settles O20: the cells follow the words. -/
theorem roundOrderIsFree : Obligations.RoundOrderIsFree := by
  unfold Obligations.RoundOrderIsFree
  refine fun qs hqs => ⟨indices_perm_finRange hqs, fun l hl x => ?_⟩
  have hwords := roundWords_perm hqs hl x
  exact ⟨hwords, by rw [roundCells_valued, hwords]⟩

/-! ### The lane view (R145) -/

/-- The index in X of word `i` of quarter `k` (R23). -/
def quarterIndex (k i : Fin 4) : Fin 16 := ⟨4 * k.val + i.val, by omega⟩

/-- The quad of lane `i`. -/
def columnQuad (i : Fin 4) : Quad := ⟨quarterIndex 0 i, quarterIndex 1 i, quarterIndex 2 i, quarterIndex 3 i⟩

/-- The quad of lane `i` once the quarters are rotated down. -/
def diagonalQuad (i : Fin 4) : Quad :=
  ⟨quarterIndex 0 i, quarterIndex 1 (i + 1), quarterIndex 2 (i + 2), quarterIndex 3 (i + 3)⟩

theorem quadsA_eq_map : quadsA = (List.finRange 4).map columnQuad := by decide

theorem quadsB_eq_map : quadsB = (List.finRange 4).map diagonalQuad := by decide

@[simp] theorem quarterWord_ofQuarters (f : Fin 4 → Fin 4 → Word) (k i : Fin 4) :
    quarterWord (ofQuarters f) k i = f k i := by
  have hk : (4 * k.val + i.val) / 4 = k.val := by omega
  have hi : (4 * k.val + i.val) % 4 = i.val := by omega
  simp [quarterWord, ofQuarters, hk, hi]

theorem fourAt_columnQuad (x : Block) (i : Fin 4) : fourAt (columnQuad i) x = lane x i := rfl

theorem fourAt_diagonalQuad (x : Block) (i : Fin 4) :
    fourAt (diagonalQuad i) x =
      ⟨quarterWord x 0 i, quarterWord x 1 (i + 1), quarterWord x 2 (i + 2), quarterWord x 3 (i + 3)⟩ := rfl

/-- Rotating the quarters down makes each diagonal a lane. -/
theorem lane_rotateQuartersDown (x : Block) (i : Fin 4) :
    lane (rotateQuartersDown x) i = fourAt (diagonalQuad i) x := by
  simp [fourAt_diagonalQuad, lane, rotateQuartersDown]

/-- Rotating them back makes each lane a diagonal. -/
theorem fourAt_diagonalQuad_rotateQuartersUp (x : Block) (i : Fin 4) :
    fourAt (diagonalQuad i) (rotateQuartersUp x) = lane x i := by
  simp [fourAt_diagonalQuad, lane, rotateQuartersUp]

theorem lane_laneWise (x : Block) (i : Fin 4) : lane (laneWise x) i = quarterRound (lane x i) := by
  simp only [lane, laneWise, quarterWord_ofQuarters]
  rfl

theorem laneWise_eq_roundAWords (x : Block) : laneWise x = roundAWords x := by
  refine eq_roundWords (qs := quadsA) (by simp) fun q hq => ?_
  rw [quadsA_eq_map, List.mem_map] at hq
  obtain ⟨i, -, rfl⟩ := hq
  rw [fourAt_columnQuad, fourAt_columnQuad, lane_laneWise]

theorem laneRoundB_eq_roundBWords (x : Block) : laneRoundB x = roundBWords x := by
  refine eq_roundWords (qs := quadsB) (by simp) fun q hq => ?_
  rw [quadsB_eq_map, List.mem_map] at hq
  obtain ⟨i, -, rfl⟩ := hq
  rw [laneRoundB, fourAt_diagonalQuad_rotateQuartersUp, lane_laneWise, lane_rotateQuartersDown]

/-- Settles O21: lane by lane, each quad of the round becomes QR of what it was. -/
theorem laneViewAgrees : Obligations.LaneViewAgrees := by
  unfold Obligations.LaneViewAgrees
  exact fun x => ⟨laneWise_eq_roundAWords x, laneRoundB_eq_roundBWords x⟩

/-! ### The schedule (R143, R144) -/

theorem roundAt_even {r : Nat} (h : r % 2 = 0) (x : Block) : roundAt r x = roundAWords x := if_pos h

theorem roundAt_odd {r : Nat} (h : r % 2 = 1) (x : Block) : roundAt r x = roundBWords x := if_neg (by omega)

theorem mixRounds_two_mul (n : Nat) (x : Block) : mixRounds (2 * n) x = dround^[n] x := by
  induction n with
  | zero => rfl
  | succ n ih =>
    rw [Function.iterate_succ_apply', ← ih, Nat.mul_succ, mixRounds_succ, mixRounds_succ,
      roundAt_odd (by omega), roundAt_even (by omega), dround]

/-- Settles O22: round 2n is of type A and round 2n + 1 of type B. -/
theorem scheduleIsDoubleRounds : Obligations.ScheduleIsDoubleRounds := by
  unfold Obligations.ScheduleIsDoubleRounds
  exact ⟨mixRounds_two_mul, mixRounds_two_mul 10⟩

/-! ### The order of the two round types (R144) -/

/-- The assembled State of the standard case (95_test_vectors.md L2.5). -/
def standardState : Block :=
  assemble #v[0x03020100#32, 0x07060504#32, 0x0b0a0908#32, 0x0f0e0d0c#32, 0x13121110#32, 0x17161514#32, 0x1b1a1918#32,
    0x1f1e1d1c#32] #v[1#32, 0#32] #v[9#32, 0x4a#32]

/-- Settles O23: on the standard case's State the two orders give different first words (L2.5, L2.6). -/
theorem roundTypesDoNotCommute : Obligations.RoundTypesDoNotCommute := by
  unfold Obligations.RoundTypesDoNotCommute
  have hAB : (roundBWords (roundAWords standardState))[0] = 0xe76d7fff#32 := by decide
  have hBA : (roundAWords (roundBWords standardState))[0] = 0x4864cb0b#32 := by decide
  refine ⟨standardState, fun h => ?_⟩
  rw [h, hBA] at hAB
  exact absurd hAB (by decide)

end Sys2Proof.Machine

/-! Proofs: the sequencer at its ports is the transaction (44_block_and_adder.md R171, 92_eei_decisions.md D1, D6). -/

namespace Sys2Proof.Machine

/-! ### The transaction where nothing is counted -/

theorem Txn.step_of_rst {p : InPorts} (latency : Nat) (hr : p.rst = true) (t : Txn) : t.step latency p = .idle := by
  simp [Txn.step, hr]

/-- At rest without a command a transaction holds what it shows (R165). -/
theorem Txn.step_of_not_start {t : Txn} {p : InPorts} (latency : Nat) (ht : t.isBusy = false) (hs : p.start = false)
    (hr : p.rst = false) : t.step latency p = t := by
  cases t with
  | idle => simp [Txn.step, hr, hs]
  | busy left result => cases ht
  | done result => simp [Txn.step, hr, hs]

/-! ### What a state shows -/

theorem shows_doReset (s : State) : Shows (doReset s) .idle := ⟨rfl, rfl, rfl, rfl, rfl, rfl⟩

/-- After an acceptance 22 of the 23 steps of the reference LATENCY are to go (R171). -/
theorem shows_acceptPorts {s : State} (hd : s.direct = none) : Shows (acceptPorts s) (.accept 23 s.ports) :=
  ⟨hd, _, ⟨hasConst_assemble _ _ _, rfl, .inl ⟨rfl, rfl, rfl⟩⟩, rfl, .inl ⟨rfl, rfl⟩⟩

section Shows

variable {s : State} {t : Txn} (h : Shows s t)
include h

theorem Shows.busy_eq : s.busy = t.isBusy := by
  cases t with
  | idle =>
    obtain ⟨-, hidle⟩ := h
    rw [State.busy, hidle.phase]; rfl
  | busy left result =>
    obtain ⟨-, b, -, -, hphase⟩ := h
    exact State.busy_iff.mpr (hphase.imp And.left (Or.imp And.left And.left))
  | done result =>
    obtain ⟨-, b, -, -, hp⟩ := h
    rw [State.busy, hp]; rfl

theorem Shows.done_eq : s.done = t.isDone := by
  cases t with
  | idle =>
    obtain ⟨-, hidle⟩ := h
    rw [State.done, hidle.phase]; rfl
  | busy left result => exact h.not_done
  | done result =>
    obtain ⟨-, b, -, -, hp⟩ := h
    exact State.done_iff.mpr hp

theorem Shows.readBlock_eq : s.readBlock = t.readBlock := by
  have hdone := h.done_eq
  cases t with
  | idle => exact State.readBlock_of_not_done hdone
  | busy left result => exact State.readBlock_of_not_done hdone
  | done result =>
    obtain ⟨-, b, hb, rfl, hp⟩ := h
    obtain ⟨-, -, hout⟩ := hb.of_done hp
    exact State.readBlock_of_done hdone hout

/-- A state that shows no block in flight is at rest. -/
theorem Shows.resting (ht : t.isBusy = false) : s.resting = true := by
  cases t with
  | idle =>
    obtain ⟨-, hidle⟩ := h
    rw [State.resting, hidle.phase]; rfl
  | busy left result => cases ht
  | done result =>
    obtain ⟨-, b, -, -, hp⟩ := h
    rw [State.resting, hp]; rfl

/-- A state at rest takes the command on the ports, or holds, as the transaction does (R164, R165). -/
theorem Shows.exists_step_of_rest (hr : s.ports.rst = false) (ht : t.isBusy = false) :
    ∃ s', step s = .next s' ∧ Shows s' (t.step 23 s.ports) := by
  refine ⟨_, step_hold hr h.1 (h.resting ht), ?_⟩
  cases hs : s.ports.start with
  | true => rw [Txn.step_of_start 23 ht hs hr]; exact shows_acceptPorts h.1
  | false => rw [Txn.step_of_not_start 23 ht hs hr]; exact h

/-- Every step goes on, and shows the step of the transaction. -/
theorem Shows.exists_step_txn : ∃ s', step s = .next s' ∧ Shows s' (t.step 23 s.ports) := by
  cases hr : s.ports.rst with
  | true =>
    rw [Txn.step_of_rst 23 hr]
    exact ⟨_, step_reset hr, shows_doReset s⟩
  | false =>
    cases t with
    | idle => exact h.exists_step_of_rest hr rfl
    | busy left result =>
      rw [Txn.step_busy 23 left result hr]
      exact h.exists_step hr
    | done result => exact h.exists_step_of_rest hr rfl

end Shows

/-- Settles O55: reset, acceptance, rest and the busy steps each show the transaction's own step. -/
theorem sequencerRefinesTransaction : Obligations.SequencerRefinesTransaction := by
  unfold Obligations.SequencerRefinesTransaction
  exact ⟨shows_doReset State.reset, fun s t h => ⟨h.busy_eq, h.done_eq, h.readBlock_eq, h.exists_step_txn⟩⟩

end Sys2Proof.Machine

/-! Proofs: the operations of a block (44_block_and_adder.md R160 to R168, R174). -/

namespace Sys2Proof.Machine

/-! ### INIT, FINAL and the rest operations -/

/-- Away from IDLE the invariant's state holds a block. -/
theorem Inv.exists_inFlight {s : State} (h : Inv s) (hp : s.phase ≠ phaseIdle) : ∃ b, InFlight s b :=
  h.2.resolve_left fun hidle => hp hidle.phase

theorem InFlight.phase_ne_idle {s : State} {b : Block} (h : InFlight s b) : s.phase ≠ phaseIdle := by
  obtain ⟨hp, -⟩ | ⟨hp, -⟩ | ⟨hp, -⟩ | ⟨hp, -⟩ := h.phases <;> rw [hp] <;> decide

/-- In IDLE the invariant leaves no value in any cell. -/
theorem Inv.atIdle {s : State} (h : Inv s) (hp : s.phase = phaseIdle) : AtIdle s :=
  h.2.resolve_right fun ⟨_, hb⟩ => hb.phase_ne_idle hp

/-- Settles O25: INIT copies what S holds, and the invariant has a block in S at INIT. -/
theorem initCopiesState : Obligations.InitCopiesState := by
  unfold Obligations.InitCopiesState
  refine ⟨fun rc => decode_seq_ok.mpr (decodeSeq_init rc), fun s b hS => execInit_valued hS, fun s hs hp => ?_⟩
  obtain ⟨b, hb⟩ := hs.inv.exists_inFlight (by rw [hp]; decide)
  obtain ⟨hrc, -⟩ := hb.of_init hp
  exact ⟨hrc, b, hb.state⟩

/-- Settles O26: a word of OUT is a sum of words, and the invariant has blocks in X and S at FINAL. -/
theorem finalAddsState : Obligations.FinalAddsState := by
  unfold Obligations.FinalAddsState
  refine ⟨fun rc => decode_seq_ok.mpr (decodeSeq_final rc), fun s x b hX hS => ?_, fun s hs hp => ?_⟩
  · exact ⟨addWords x b, execFinal_valued hX hS, fun i => by rw [addWords_getElem, BitVec.toNat_add]⟩
  · obtain ⟨b, hb⟩ := hs.inv.exists_inFlight (by rw [hp]; decide)
    obtain ⟨-, hX, -⟩ := hb.of_final hp
    exact ⟨mix20 b, b, hX, hb.state⟩

theorem hold_of_start {s : State} (h : s.ports.start = true) : hold s = .next (acceptPorts s) := by simp [hold, h]

/-- Settles O27: both rest operations are `hold`, and the invariant has every cell empty in IDLE. -/
theorem holdTakesStartOrHolds : Obligations.HoldTakesStartOrHolds := by
  unfold Obligations.HoldTakesStartOrHolds
  refine ⟨fun rc => ⟨decode_seq_ok.mpr (decodeSeq_idle rc), decode_seq_ok.mpr (decodeSeq_done rc)⟩,
    fun i hi s => ?_, fun s => ⟨fun hp => ?_, fun hp => ?_⟩, fun s hs hp => ?_⟩
  · have hhold : exec i s = hold s := by
      simp only [List.mem_cons, List.not_mem_nil, or_false] at hi
      obtain rfl | rfl := hi <;> rfl
    rw [hhold]
    exact ⟨hold_of_not_start, hold_of_start⟩
  · have hdone : s.done = false := by rw [State.done, hp]; rfl
    exact ⟨by rw [State.busy, hp]; rfl, hdone, State.readBlock_of_not_done hdone⟩
  · exact ⟨by rw [State.busy, hp]; rfl, State.done_iff.mpr hp⟩
  · have hidle := hs.inv.atIdle hp
    exact ⟨hidle.out, hidle.state, hidle.working⟩

/-! ### BLOCK -/

theorem State.resting_iff {s : State} : s.resting = true ↔ s.phase = phaseIdle ∨ s.phase = phaseDone := by
  simp [State.resting]

theorem State.not_resting_of_busy {s : State} (h : s.busy = true) : s.resting = false := by
  obtain hp | hp | hp := State.busy_iff.mp h <;> rw [State.resting, hp] <;> rfl

/-- BLOCK on arrays of the right lengths (R164, R165, R203, R75). -/
theorem exec_block_toList (k : Vector Word 8) (c n : Vector Word 2) (s : State) :
    exec (.block k.toList c.toList n.toList) s =
      if s.ports.rst then .next s
      else if s.resting then .next (accept k c n s)
      else if (decodeSeq s.seq).isNone then .fault (.reservedSeq s.seq)
      else .next s := by
  simp only [exec, execBlock, wordsOfLength_toList]

theorem exec_block_of_rst {s : State} (hr : s.ports.rst = true) (k : Vector Word 8) (c n : Vector Word 2) :
    exec (.block k.toList c.toList n.toList) s = .next s := by
  rw [exec_block_toList, if_pos hr]

theorem exec_block_of_resting {s : State} (hr : s.ports.rst = false) (hs : s.resting = true) (k : Vector Word 8)
    (c n : Vector Word 2) : exec (.block k.toList c.toList n.toList) s = .next (accept k c n s) := by
  rw [exec_block_toList, if_neg (by simp [hr]), if_pos hs]

/-- Arrays of the right lengths are vectors of words. -/
theorem exists_vectors {key counter nonce : List Word} (hk : key.length = 8) (hc : counter.length = 2)
    (hn : nonce.length = 2) :
    ∃ (k : Vector Word 8) (c n : Vector Word 2), key = k.toList ∧ counter = c.toList ∧ nonce = n.toList := by
  obtain ⟨k, -, rfl⟩ := wordsOfLength_of_length hk
  obtain ⟨c, -, rfl⟩ := wordsOfLength_of_length hc
  obtain ⟨n, -, rfl⟩ := wordsOfLength_of_length hn
  exact ⟨k, c, n, rfl, rfl, rfl⟩

/-- Settles O28: a resting core accepts the arrays' words. -/
theorem blockAcceptedAtRest : Obligations.BlockAcceptedAtRest := by
  unfold Obligations.BlockAcceptedAtRest
  intro key counter nonce s hk hc hn hr hp
  obtain ⟨k, c, n, rfl, rfl, rfl⟩ := exists_vectors hk hc hn
  exact ⟨assemble k c n, exec_block_of_resting hr (State.resting_iff.mpr hp) k c n, assemble_toList k c n⟩

/-- Settles O29: at `rst` = 1 and while busy BLOCK changes nothing, and a reserved SEQ value is no phase of rest. -/
theorem blockTurnedAway : Obligations.BlockTurnedAway := by
  unfold Obligations.BlockTurnedAway
  intro key counter nonce s hk hc hn
  obtain ⟨k, c, n, rfl, rfl, rfl⟩ := exists_vectors hk hc hn
  refine ⟨fun hr => exec_block_of_rst hr k c n, fun hbusy ⟨i, hi⟩ => ?_, fun hr hres => ?_⟩
  · have hseq : decodeSeq s.seq = some i := decode_seq_ok.mp hi
    rw [exec_block_toList, State.not_resting_of_busy hbusy, hseq]
    simp
  · have hseq : decodeSeq s.seq = none := by
      cases hd : decodeSeq s.seq with
      | none => rfl
      | some i => exact nomatch hres.symm.trans (decode_seq_ok.mpr hd)
    have hrest : s.resting ≠ true := fun hs => by
      obtain hp | hp := State.resting_iff.mp hs <;> simp [State.seq, hp] at hseq
    rw [exec_block_toList, if_neg (by simp [hr]), if_neg hrest, if_pos (by simp [hseq])]

/-- The length check fails for arrays of other lengths (R174). -/
theorem wordsOfLength_none_of_lengths {key counter nonce : List Word}
    (h : ¬(key.length = 8 ∧ counter.length = 2 ∧ nonce.length = 2)) :
    wordsOfLength 8 key = none ∨ wordsOfLength 2 counter = none ∨ wordsOfLength 2 nonce = none := by
  rw [not_and_or, not_and_or] at h
  exact h.imp wordsOfLength_none (Or.imp wordsOfLength_none wordsOfLength_none)

/-- Settles O30: BLOCK and the array form of BlockCore go on only past the length check. -/
theorem malformedInputRefused : Obligations.MalformedInputRefused := by
  unfold Obligations.MalformedInputRefused
  refine fun key counter nonce s => ⟨fun h => ?_, ?_⟩
  · have hnone := wordsOfLength_none_of_lengths h
    simp only [exec, execBlock, blockCoreArrays]
    split
    next hk hc hn => simp [hk, hc, hn] at hnone
    next => exact ⟨rfl, rfl⟩
  · rintro k c n rfl rfl rfl
    simp only [blockCoreArrays, wordsOfLength_toList]

end Sys2Proof.Machine

/-! Proofs: the operation a step runs (44_block_and_adder.md R166, 30_encoding.md R70), and the dump port (R170). -/

namespace Sys2Proof.Machine

/-! ### The sequencer's step -/

/-- Settles O44: an empty slot leaves the decoded operation alone. -/
theorem stepRunsDecodedSeq : Obligations.StepRunsDecodedSeq := by
  unfold Obligations.StepRunsDecodedSeq
  exact fun s i hr hd hi => step_seq hr hd (decode_seq_ok.mp hi)

/-- SEQ decodes to a rest operation only at rest (R73). -/
theorem resting_of_decodeSeq_hold {s : State} {i : Instr} (h : decodeSeq s.seq = some i)
    (hi : i = .holdIdle ∨ i = .holdDone) : s.resting = true := by
  obtain ⟨hs, -⟩ | ⟨-, rfl⟩ | ⟨-, -, rfl | rfl⟩ | ⟨-, rfl⟩ := phase_cases_of_decodeSeq h
  · exact hs
  all_goals simp at hi

/-- A round's new X and its advance, for the last round and for the others (R166). -/
theorem advance_setX_eq_ite (s : State) (x : Cells) :
    advance (s.setX x) =
      if s.rc = 19#5 then { s with X := x, phase := phaseFinal } else { s with X := x, rc := s.rc + 1#5 } := rfl

/-- Settles O48: each case is the operation that SEQ decodes to, on the cells it reads. -/
theorem referenceSequencerStep : Obligations.ReferenceSequencerStep := by
  unfold Obligations.ReferenceSequencerStep
  refine fun s hd => ⟨fun hr => ⟨_, step_reset hr, rfl, rfl, rfl, rfl, rfl⟩, fun hr => ⟨step_reserved hr hd,
    fun hseq => ?_, fun b hseq hS => ?_, fun x hseq hX => ?_,
    fun x hseq hX => ?_, fun x b hseq hX hS => ?_⟩⟩
  · exact step_hold hr hd <| hseq.elim (resting_of_decodeSeq_hold · (.inl rfl))
      (resting_of_decodeSeq_hold · (.inr rfl))
  · rw [step_seq hr hd hseq, ← hS]
    exact execInit_valued hS
  · rw [step_seq hr hd hseq, exec_roundA, execRoundA_valued hX, advance_setX_eq_ite]
    rfl
  · rw [step_seq hr hd hseq, exec_roundB, execRoundB_valued hX, advance_setX_eq_ite]
    rfl
  · rw [step_seq hr hd hseq]
    exact execFinal_valued hX hS

/-! ### BLOCK on the ports -/

/-- The CMD on the ports and the rest operation of SEQ are one acceptance (R164, R166). -/
theorem step_eq_exec_block {s : State} (hr : s.ports.rst = false) (hstart : s.ports.start = true)
    (hd : s.direct = none) (hs : s.resting = true) :
    step s = exec (.block (wordsAt (inputBundle s.ports) 0 8) (wordsAt (inputBundle s.ports) 8 2)
      (wordsAt (inputBundle s.ports) 10 2)) s := by
  obtain ⟨hkey, hcounter, hnonce⟩ := wordsAt_inputBundle s.ports
  rw [hkey, hcounter, hnonce, exec_block_of_resting hr hs, step_hold hr hd hs, if_pos hstart]
  rfl

/-- Settles O46: the bundle's words are the operands that the rest operation accepts. -/
theorem startAtRestRunsBlock : Obligations.StartAtRestRunsBlock := by
  unfold Obligations.StartAtRestRunsBlock
  exact fun s hr hstart hd hp => ⟨_, _, _, decode_cmd_ok.mpr ⟨rfl, rfl⟩,
    step_eq_exec_block hr hstart hd (State.resting_iff.mpr hp)⟩

/-! ### A placed word -/

/-- The ports that carry a command carry its bundle (R71). -/
theorem inputBundle_commandPorts (start : Bool) (ib : BitVec 384) : inputBundle (commandPorts start ib) = ib := by
  apply BitVec.eq_of_getLsbD_eq
  intro k hk
  rw [inputBundle_getLsbD]
  by_cases h1 : k < 256
  · simp [commandPorts, h1]
  · by_cases h2 : k < 320
    · simp [commandPorts, h1, h2, show k - 256 < 64 by omega, show 256 + (k - 256) = k by omega]
    · simp [commandPorts, h1, h2, show k - 320 < 64 by omega, show 320 + (k - 320) = k by omega]

theorem resting_placeBits_cmd (start : BitVec 1) (ib : BitVec 384) (s : State) :
    (placeBits (.cmd start ib) s).resting = true := by
  have hp : (placeBits (.cmd start ib) s).phase = if s.resting then s.phase else phaseIdle := rfl
  rw [State.resting_iff, hp]
  by_cases hs : s.resting = true
  · rw [if_pos hs]; exact State.resting_iff.mp hs
  · rw [if_neg hs]; exact .inl rfl

theorem seq_placeBits_seq (w : BitVec 8) (s : State) : (placeBits (.seq w) s).seq = w := packSeq_fields w

/-- The step after a placing runs the operation of the placed bits (logs 7, 8). -/
theorem step_placeBits {b : Bits} {i : Instr} (h : decode b = .ok i) (s : State) :
    step (placeBits b s) = exec i (placeBits b s).clearDirect := by
  cases b with
  | cmd start ib =>
    obtain ⟨rfl, rfl⟩ := decode_cmd_ok.mp h
    have hstep := step_eq_exec_block (s := placeBits (.cmd 1#1 ib) s) rfl rfl rfl (resting_placeBits_cmd _ ib s)
    rwa [show inputBundle (placeBits (.cmd 1#1 ib) s).ports = ib from inputBundle_commandPorts true ib] at hstep
  | seq w =>
    have hseq : decodeSeq (placeBits (.seq w) s).seq = some i := by
      rw [seq_placeBits_seq]; exact decode_seq_ok.mp h
    exact step_seq rfl rfl hseq
  | qrsel w =>
    have hsel : decodeQrsel w = some i := decode_qrsel_ok.mp h
    exact step_of_fetch rfl (by simp [fetch, placeBits, hsel])
  | rotamt n v =>
    obtain ⟨hn, rfl⟩ := decode_rotamt_ok.mp h
    exact step_of_fetch rfl (by simp [fetch, placeBits, decodeRotamt, hn])

theorem decodeTableWord_some {nbits w : Nat} {i : Instr} (h : decodeTableWord nbits w = some i) :
    ∃ b, tablePlace nbits w = some b ∧ decode b = .ok i := by
  unfold decodeTableWord at h
  split at h
  next => cases h
  next b hb =>
    split at h
    next hi => cases h; exact ⟨b, hb, hi⟩
    next => cases h

/-- Settles O47: a table word has a place, and the bits put there are what the step fetches. -/
theorem placedTableWordRuns : Obligations.PlacedTableWordRuns := by
  unfold Obligations.PlacedTableWordRuns
  intro s nbits w i h
  obtain ⟨b, hplace, hdecode⟩ := decodeTableWord_some h
  have hfetch : s.withFetchWord nbits w = placeBits b s := by rw [State.withFetchWord, hplace]
  rw [hfetch]
  exact step_placeBits hdecode s

/-! ### The dump port -/

theorem State.dbgValid_iff {c : Config} {s : State} :
    s.dbgValid c = true ↔ c.debugDump = true ∧ s.phase = phaseInit := by
  simp [State.dbgValid]

theorem State.readDbgState_of_valid {c : Config} {s : State} {b : Block} (hv : s.dbgValid c = true)
    (hS : s.S = valued b) : s.readDbgState c = .ok (some (packBlock b)) := by
  rw [State.readDbgState, if_pos hv, hS, readAll_valued]
  rfl

/-- Settles O36: where the port is valid it packs S. -/
theorem debugPort : Obligations.DebugPort := by
  unfold Obligations.DebugPort
  exact fun c s => ⟨State.dbgValid_iff,
    fun b hv hS => ⟨packBlock b, State.readDbgState_of_valid hv hS, packBlock_word b⟩,
    State.readDbgState_of_not_valid⟩

end Sys2Proof.Machine

/-! Proofs: the BLOCK transaction over a run (44_block_and_adder.md R164, R165, R171 to R173; 10_state.md R29). -/

namespace Sys2Proof.Machine

/-! ### A step that accepts nothing leaves S -/

theorem ofExcept_map_next {α : Type} {r : Except Fault α} {f : α → State} {t : State}
    (h : ofExcept (r.map f) = .next t) : ∃ a, r = .ok a ∧ t = f a := by
  cases r with
  | error e => cases h
  | ok a => cases h; exact ⟨a, rfl, rfl⟩

/-- Operations that listen to no command write no word of S (R39). -/
theorem exec_S_eq {i : Instr} (hi : readsNoPort i = true) {s t : State} (h : exec i s = .next t) : t.S = s.S := by
  cases i with
  | block | holdIdle | holdDone => cases hi
  | init => obtain ⟨b, -, rfl⟩ := ofExcept_map_next h; rfl
  | roundA | roundB => obtain ⟨x, -, rfl⟩ := ofExcept_map_next h; simp
  | final =>
    obtain ⟨⟨x, hX⟩, b, hS⟩ := X_S_valued_of_final_next h
    cases h.symm.trans (execFinal_valued hX hS)
    rfl
  | qrA0 | qrA1 | qrA2 | qrA3 | qrB0 | qrB1 | qrB2 | qrB3 =>
    simp only [exec_qrA0, exec_qrA1, exec_qrA2, exec_qrA3, exec_qrB0, exec_qrB1, exec_qrB2, exec_qrB3] at h
    rw [applyQrsel_next h]
    rfl
  | qr => cases h; rfl
  | rotl v n =>
    rw [exec_rotl, execRotl] at h
    split at h
    next => cases h
    next => cases h; rfl

theorem exists_fetch_of_step_next {s t : State} (hr : s.ports.rst = false) (h : step s = .next t) :
    ∃ i, fetch s = .next i ∧ exec i s.clearDirect = .next t := by
  cases hf : fetch s with
  | next i => exact ⟨i, rfl, (step_of_fetch hr hf).symm.trans h⟩
  | fault f => simp [step, hr, hf] at h
  | refused r => simp [step, hr, hf] at h

/-- Without a reset, a step with `start` = 0 or of a busy core leaves S as it is, a direct application's step too. -/
theorem step_S_eq {s t : State} (hr : s.ports.rst = false) (hs : s.ports.start = false ∨ s.busy = true)
    (h : step s = .next t) : t.S = s.S := by
  obtain ⟨i, hf, he⟩ := exists_fetch_of_step_next hr h
  obtain hi | ⟨hrest, hhold⟩ := fetch_next_cases hf
  · exact exec_S_eq (s := s.clearDirect) hi he
  · have hstart : s.ports.start = false := hs.resolve_right fun hbusy => by
      simp [State.not_resting_of_busy hbusy] at hrest
    rw [hhold, hold_of_not_start (s := s.clearDirect) hstart] at he
    cases he
    rfl

/-! ### Runs -/

theorem runPorts_cons {s t : State} {p : InPorts} (h : step (s.drive p) = .next t) (ps : List InPorts) :
    runPorts (p :: ps) s = runPorts ps t := by
  simp only [runPorts, h]

theorem exists_step_of_runPorts_cons {s u : State} {p : InPorts} {ps : List InPorts}
    (h : runPorts (p :: ps) s = .next u) : ∃ t, step (s.drive p) = .next t ∧ runPorts ps t = .next u := by
  rw [runPorts] at h
  split at h
  next t ht => exact ⟨t, ht, h⟩
  next => cases h
  next => cases h

/-- A run without a reset or a command leaves S. -/
theorem runPorts_S_eq {ps : List InPorts} {s u : State} (hps : ∀ q ∈ ps, q.rst = false ∧ q.start = false)
    (h : runPorts ps s = .next u) : u.S = s.S := by
  induction ps generalizing s with
  | nil => cases h; rfl
  | cons q qs ih =>
    obtain ⟨⟨hr, hs⟩, hqs⟩ := List.forall_mem_cons.mp hps
    obtain ⟨t, ht, hrun⟩ := exists_step_of_runPorts_cons h
    exact (ih hqs hrun).trans (step_S_eq (s := s.drive q) hr (.inl hs) ht)

/-- At rest a run without a reset or a command changes the ports alone (R165, R167, R168). -/
theorem runPorts_of_rest {ps : List InPorts} {s : State} (hrest : s.resting = true) (hd : s.direct = none)
    (hps : ∀ q ∈ ps, q.rst = false ∧ q.start = false) : ∃ p, runPorts ps s = .next (s.drive p) := by
  induction ps generalizing s with
  | nil => exact ⟨s.ports, rfl⟩
  | cons q qs ih =>
    obtain ⟨⟨hr, hs⟩, hqs⟩ := List.forall_mem_cons.mp hps
    have hstep : step (s.drive q) = .next (s.drive q) := by
      rw [step_hold (s := s.drive q) hr hd hrest]
      simp [hs]
    obtain ⟨p, hrun⟩ := ih (s := s.drive q) hrest hd hqs
    exact ⟨p, (runPorts_cons hstep qs).trans hrun⟩

/-- A block in flight: each step without a reset takes one of the steps that are left, and leaves S (R165, R171). -/
theorem Shows.exists_run {ps : List InPorts} {left : Nat} {s : State} {result : Block}
    (h : Shows s (.pending left result)) (hps : ∀ q ∈ ps, q.rst = false) (hle : ps.length ≤ left) :
    ∃ u, runPorts ps s = .next u ∧ u.S = s.S ∧ Shows u (.pending (left - ps.length) result) := by
  induction ps generalizing left s with
  | nil => exact ⟨s, rfl, rfl, h⟩
  | cons q qs ih =>
    obtain ⟨hr, hqs⟩ := List.forall_mem_cons.mp hps
    rw [List.length_cons] at hle ⊢
    rw [Txn.pending_of_ne_zero (by omega)] at h
    obtain ⟨t, ht, hshows⟩ := (h.drive q).exists_step hr
    obtain ⟨u, hrun, hS, hu⟩ := ih hshows hqs (by omega)
    refine ⟨u, (runPorts_cons ht qs).trans hrun, hS.trans ?_, ?_⟩
    · exact step_S_eq (s := s.drive q) hr (.inr h.busy_eq) ht
    · rwa [show left - (qs.length + 1) = left - 1 - qs.length by omega]

/-! ### A block from its acceptance on -/

section Acceptance

variable {s : State} {p : InPorts} (hs : s.resting = true) (hd : s.direct = none) (hr : p.rst = false)
  (hstart : p.start = true)
include hs hd hr hstart

theorem step_of_start : step (s.drive p) = .next (acceptPorts (s.drive p)) := by
  rw [step_hold (s := s.drive p) hr hd hs]
  simp [hstart]

/-- After the acceptance and `ps.length` further steps, 22 - `ps.length` are to go (R171). -/
theorem exists_run_of_start {ps : List InPorts} (hps : ∀ q ∈ ps, q.rst = false) (hle : ps.length ≤ 22) :
    ∃ u, runPorts (p :: ps) s = .next u ∧ u.S = valued (assemble (portKey p) (portCounter p) (portNonce p)) ∧
      Shows u (.pending (22 - ps.length) (blockCore (portKey p) (portCounter p) (portNonce p))) := by
  have hshows : Shows (acceptPorts (s.drive p)) _ := shows_acceptPorts (s := s.drive p) hd
  obtain ⟨u, hrun, hS, hu⟩ := Shows.exists_run hshows hps hle
  exact ⟨u, (runPorts_cons (step_of_start hs hd hr hstart) ps).trans hrun, hS, hu⟩

end Acceptance

/-- Settles O31: 22 steps are to go after the acceptance, and a busy core leaves S as it is. -/
theorem blockTransaction : Obligations.BlockTransaction := by
  unfold Obligations.BlockTransaction
  refine ⟨fun s t p ht => ⟨fun hr => ?_, fun hr hs => step_S_eq (s := s.drive p) hr hs ht⟩,
    fun s p hp hd hr hstart => ?_⟩
  · rw [step_reset (s := s.drive p) hr] at ht
    cases ht
    exact ⟨rfl, rfl⟩
  · have hs : s.resting = true := State.resting_iff.mpr hp
    have hshows : Shows (acceptPorts (s.drive p)) _ := shows_acceptPorts (s := s.drive p) hd
    refine ⟨_, step_of_start hs hd hr hstart, rfl, rfl, rfl, rfl, fun ps hle hps => ?_⟩
    obtain ⟨u, hrun, -, hu⟩ := Shows.exists_run hshows hps hle
    refine ⟨u, hrun, fun hlt => ?_, fun heq => ?_⟩
    · rw [Txn.pending_of_ne_zero (by omega)] at hu
      exact ⟨hu.busy_eq, hu.done_eq, hu.readBlock_eq⟩
    · rw [show 22 - ps.length = 0 by omega, Txn.pending_zero] at hu
      exact ⟨hu.busy_eq, hu.done_eq, hu.readBlock_eq⟩

/-- A state that shows a result has its bits on `block_out` (R38). -/
theorem Shows.readBlockOut_of_done {s : State} {result : Block} (h : Shows s (.done result)) :
    s.readBlockOut = .ok (packBlock result) := by
  rw [State.readBlockOut, h.readBlock_eq]
  rfl

/-- Settles O32: the result shown depends on the data ports of the acceptance alone. -/
theorem sameInputsSameBlock : Obligations.SameInputsSameBlock := by
  unfold Obligations.SameInputsSameBlock
  intro s₁ s₂ p₁ p₂ ps₁ ps₂ hs₁ hs₂ hd₁ hd₂ hr₁ hr₂ hstart₁ hstart₂ hkey hcounter hnonce hlen₁ hlen₂ hps
  obtain ⟨hps₁, hps₂⟩ := List.forall_mem_append.mp hps
  obtain ⟨u₁, hrun₁, -, hu₁⟩ := exists_run_of_start hs₁ hd₁ hr₁ hstart₁ hps₁ hlen₁.le
  obtain ⟨u₂, hrun₂, -, hu₂⟩ := exists_run_of_start hs₂ hd₂ hr₂ hstart₂ hps₂ hlen₂.le
  rw [hlen₁, Nat.sub_self, Txn.pending_zero] at hu₁
  rw [hlen₂, Nat.sub_self, Txn.pending_zero] at hu₂
  have hops : blockCore (portKey p₁) (portCounter p₁) (portNonce p₁) =
      blockCore (portKey p₂) (portCounter p₂) (portNonce p₂) := by
    simp only [portKey, portCounter, portNonce, hkey, hcounter, hnonce]
  refine ⟨u₁, u₂, hrun₁, hrun₂, hu₁.done_eq, hu₂.done_eq, ?_, _, hu₁.readBlockOut_of_done⟩
  rw [hu₁.readBlockOut_of_done, hu₂.readBlockOut_of_done, hops]

/-- Settles O33: words 12 and 13 of the assembled State are the counter's, and only commands write S. -/
theorem counterNeverChanged : Obligations.CounterNeverChanged := by
  unfold Obligations.CounterNeverChanged
  intro s p ps t u hs hd hr hstart hps ht hrun
  have hS : u.S = t.S := runPorts_S_eq hps hrun
  cases (step_of_start hs hd hr hstart).symm.trans ht
  have hword (j : Nat) (hj : j < 2) : (assemble (portKey p) (portCounter p) (portNonce p))[12 + j] =
      p.counterIn.extractLsb' (32 * j) 32 := by
    rw [assemble_counter _ _ _ hj]
    simp [portCounter, wordAt]
  refine ⟨hS, ?_, ?_⟩
  · rw [hS, acceptPorts_S, valued_getElem_nat]
    exact congrArg some (hword 0 (by decide))
  · rw [hS, acceptPorts_S, valued_getElem_nat]
    exact congrArg some (hword 1 (by decide))

/-- Settles O38: a busy core is not at rest, and a run at rest without a command changes the ports alone. -/
theorem startWhileBusyIgnoredAndResultHeld : Obligations.StartWhileBusyIgnoredAndResultHeld := by
  unfold Obligations.StartWhileBusyIgnoredAndResultHeld
  refine ⟨fun s t p hbusy _ ht => ?_, fun s ps hp hd hps => ?_⟩
  · have hdrive := step_drive (p := { p with start := false }) (q := { p with start := true }) rfl
      (.inr (.inl (State.not_resting_of_busy hbusy)))
    exact hdrive.trans (congrArg (driveNext _) ht)
  · obtain ⟨p, hrun⟩ := runPorts_of_rest (State.resting_iff.mpr (.inr hp)) hd hps
    exact ⟨s.drive p, hrun, rfl, State.done_iff.mpr hp, rfl⟩

/-! ### Where a block stands -/

/-- The block in flight is the one whose State stands in S. -/
theorem InFlight.of_S {s : State} {b b' : Block} (h : InFlight s b') (hS : s.S = valued b) : InFlight s b :=
  valued_injective (h.state.symm.trans hS) ▸ h

/-- The phase of a block in flight by the steps that are left, with X as far along as R171 says. -/
theorem Shows.phase_of_left {s : State} {b result : Block} {left : Nat} (h : Shows s (.busy left result))
    (hS : s.S = valued b) :
    (left = 22 ∧ s.phase = phaseInit ∧ s.rc = 0#5) ∨
    (∃ r < 20, left = 21 - r ∧ s.phase = phaseRound ∧ s.rc.toNat = r ∧ s.X = valued (mixRounds r b)) ∨
    (left = 1 ∧ s.phase = phaseFinal ∧ s.X = valued (mix20 b)) := by
  obtain ⟨-, b', hb', -, hleft⟩ := h
  have hb := hb'.of_S hS
  obtain ⟨hp, hl⟩ | ⟨hp, hl⟩ | ⟨hp, hl⟩ := hleft
  · obtain ⟨hrc, -⟩ := hb.of_init hp
    exact .inl ⟨hl, hp, hrc⟩
  · obtain ⟨hrc, hX, -⟩ := hb.of_round hp
    exact .inr (.inl ⟨s.rc.toNat, by omega, hl, hp, rfl, hX⟩)
  · obtain ⟨-, hX, -⟩ := hb.of_final hp
    exact .inr (.inr ⟨hl, hp, hX⟩)

/-- Settles O49: the number of steps that are left names the phase, and S names the block. -/
theorem blockPassesThroughPhases : Obligations.BlockPassesThroughPhases := by
  unfold Obligations.BlockPassesThroughPhases
  intro s p ps hs hd hr hstart hps hle b
  obtain ⟨u, hrun, hS, hu⟩ := exists_run_of_start hs hd hr hstart hps hle
  refine ⟨u, hrun, hS, fun hn => ?_, fun r hr20 hn => ?_, fun hn => ?_, fun hn => ?_⟩ <;> rw [hn] at hu
  · obtain ⟨-, hp⟩ | ⟨r, -, hl, -⟩ | ⟨hl, -⟩ := Shows.phase_of_left hu hS
    · exact hp
    · omega
    · omega
  · rw [Txn.pending_of_ne_zero (by omega)] at hu
    obtain ⟨hl, -⟩ | ⟨r', hr', hl, hp, hrc, hX⟩ | ⟨hl, -⟩ := Shows.phase_of_left hu hS
    · omega
    · obtain rfl : r' = r := by omega
      exact ⟨hp, hrc, hX⟩
    · omega
  · obtain ⟨hl, -⟩ | ⟨r, hr20, hl, -⟩ | ⟨-, hp⟩ := Shows.phase_of_left hu hS
    · omega
    · omega
    · exact hp
  · obtain ⟨-, b', hb', -, hp⟩ : Shows u (.done _) := hu
    obtain ⟨-, -, hout⟩ := (hb'.of_S hS).of_done hp
    exact ⟨hp, hout⟩

end Sys2Proof.Machine

/-! Proofs: no run stops, and cores on one platform (60_exceptions.md R200, R201, R208). -/

namespace Sys2Proof.Machine

/-! ### No run stops -/

/-- From a state that meets the invariant a step goes on (R33, R200). -/
theorem Inv.exists_next {s : State} (h : Inv s) : ∃ t, step s = .next t := by
  obtain ⟨t, ht, -⟩ := exists_step_of_inv h
  exact ⟨t, ht⟩

/-- Settles O52: every reached state meets the invariant, and driving the ports keeps it. -/
theorem stepNeverStops : Obligations.StepNeverStops := by
  unfold Obligations.StepNeverStops
  exact ⟨fun _ hinv => hinv.exists_next, fun _ hreach p => (hreach.inv.drive p).exists_next⟩

/-! ### Several cores -/

/-- A platform goes on only by a step of the core that is driven, and that core's entry alone is written. -/
theorem Platform.exists_step_of_stepCore {P Q : Platform} {k : Fin P.cores.length} {p : InPorts}
    (h : P.stepCore k p = .next Q) :
    ∃ s, step ((P.cores[k]).drive p) = .next s ∧ Q.cores = P.cores.set k s := by
  unfold Platform.stepCore at h
  split at h
  next s hs =>
    cases h
    exact ⟨s, hs, rfl⟩
  next => cases h
  next => cases h

/-- Settles O59: the driven core's entry is its own next state, and the entries beside it are not written. -/
theorem platformCoresShareNothing : Obligations.PlatformCoresShareNothing := by
  unfold Obligations.PlatformCoresShareNothing
  intro P Q k p h
  obtain ⟨s, hs, hcores⟩ := Platform.exists_step_of_stepCore h
  rw [hcores]
  refine ⟨List.length_set, ⟨s, hs, ?_⟩, fun j hj => ?_⟩
  · exact List.getElem?_set_self k.isLt
  · exact List.getElem?_set_ne hj.symm

end Sys2Proof.Machine

/-! Proofs: reset, and what a reset abandons (70_reset_and_hazards.md R230 to R232). -/

namespace Sys2Proof.Machine

/-! ### The step with `rst` = 1 -/

/-- Holding `rst` repeats the same effect (R230). -/
@[simp] theorem doReset_doReset (s : State) : doReset (doReset s) = doReset s := rfl

/-- Settles O40: the step is the reset, and a reset of a reset state is that state. -/
theorem resetWins : Obligations.ResetWins := by
  unfold Obligations.ResetWins
  intro s hr
  have hagain : step (doReset s) = .next (doReset s) := by
    rw [step_reset (s := doReset s) hr, doReset_doReset]
  exact ⟨doReset s, step_reset hr, doReset_phase s, doReset_rc s, doReset_S s, doReset_X s, doReset_OUT s,
    doReset_ports s, hagain⟩

/-- Settles O41: a reset leaves of a state its ports alone. -/
theorem resetEmptiesTheModelsFields : Obligations.ResetEmptiesTheModelsFields := by
  unfold Obligations.ResetEmptiesTheModelsFields
  intro s hr
  rw [step_reset hr, doReset_eq]

/-- Settles O43: the state after a reset is at rest, with no direct application, so it takes the command. -/
theorem acceptsAfterReset : Obligations.AcceptsAfterReset := by
  unfold Obligations.AcceptsAfterReset
  intro s p q hp hq hstart
  have hshows := shows_doReset (s.drive p)
  exact ⟨doReset (s.drive p), _, step_reset (s := s.drive p) hp, doReset_phase _,
    step_of_start (hshows.resting rfl) (doReset_direct _) hq hstart, rfl, acceptPorts_S _⟩

/-! ### The host waits after a reset -/

/-- A transaction that is idle stays so without a command, a reset or not. -/
theorem Txn.step_idle_of_not_start {p : InPorts} (latency : Nat) (hs : p.start = false) :
    Txn.idle.step latency p = .idle := by
  cases hr : p.rst with
  | true => exact Txn.step_of_rst latency hr .idle
  | false => exact Txn.step_of_not_start latency rfl hs hr

/-- However long the host waits without a command, an idle core shows no block (R231). -/
theorem Shows.exists_run_of_idle {ps : List InPorts} {s : State} (h : Shows s .idle)
    (hps : ∀ q ∈ ps, q.start = false) : ∃ u, runPorts ps s = .next u ∧ Shows u .idle := by
  induction ps generalizing s with
  | nil => exact ⟨s, rfl, h⟩
  | cons q qs ih =>
    obtain ⟨hs, hqs⟩ := List.forall_mem_cons.mp hps
    obtain ⟨t, ht, hshows⟩ := (h.drive q).exists_step_txn
    rw [State.drive_ports, Txn.step_idle_of_not_start 23 hs] at hshows
    obtain ⟨u, hrun, hu⟩ := ih hshows hqs
    exact ⟨u, (runPorts_cons ht qs).trans hrun, hu⟩

/-- An idle core has no value on `block_out` (R38). -/
theorem Shows.readBlockOut_of_idle {s : State} (h : Shows s .idle) :
    s.readBlockOut = .error (.noValue .blockOut) := by
  rw [State.readBlockOut, h.readBlock_eq]
  rfl

/-- Settles O42: the reset core shows idle as long as the host waits, and an idle core takes the next block. -/
theorem resetAbandonsBlock : Obligations.ResetAbandonsBlock := by
  unfold Obligations.ResetAbandonsBlock
  intro s p ps hp hps
  obtain ⟨u, hwait, hu⟩ := (shows_doReset (s.drive p)).exists_run_of_idle hps
  refine ⟨u, (runPorts_cons (step_reset (s := s.drive p) hp) ps).trans hwait, hu.done_eq, hu.busy_eq,
    hu.readBlockOut_of_idle, fun q qs hq hstart hlen hqs => ?_⟩
  have hd : u.direct = none := hu.1
  obtain ⟨v, hrun, -, hv⟩ := exists_run_of_start (hu.resting rfl) hd hq hstart hqs hlen.le
  rw [hlen, Nat.sub_self, Txn.pending_zero] at hv
  exact ⟨v, hrun, hv.done_eq, hv.readBlock_eq⟩

end Sys2Proof.Machine

/-! Proofs: the encoder and the decoder undo each other (30_encoding.md R70 to R79). -/

namespace Sys2Proof.Machine

/-! ### Words packed in a bundle and read from it (R53, R71) -/

/-- A segment of packed words reads back as that segment. -/
theorem wordsAt_packWords_append {w : Nat} (pre l post : List Word) (hw : 32 * (pre ++ l ++ post).length ≤ w) :
    wordsAt (BitVec.ofNat w (packWords (pre ++ l ++ post))) pre.length l.length = l := by
  refine List.ext_getElem (wordsAt_length _ _ _) fun k hk hl => ?_
  have hlt : pre.length + k < (pre ++ l ++ post).length := by simp only [List.length_append]; omega
  rw [wordsAt_getElem, wordAt_packWords w _ _ hlt hw]
  simp [hl]

/-- Packing every word of a bundle of `n` words gives the bundle. -/
theorem ofNat_packWords_wordsAt {w n : Nat} (hw : w = 32 * n) (v : BitVec w) :
    BitVec.ofNat w (packWords (wordsAt v 0 n)) = v := by
  have hv : v.toNat % 2 ^ w = v.toNat := Nat.mod_eq_of_lt v.isLt
  apply BitVec.eq_of_toNat_eq
  rw [BitVec.toNat_ofNat, packWords_wordsAt, ← hw, Nat.mul_zero, Nat.pow_zero, Nat.div_one, hv, hv]

/-! ### The encodings, format by format -/

theorem wf_block_iff {key counter nonce : List Word} :
    (Instr.block key counter nonce).wf = true ↔ key.length = 8 ∧ counter.length = 2 ∧ nonce.length = 2 := by
  simp [Instr.wf, and_assoc]

theorem wf_rotl_iff {v : Word} {n : Nat} : (Instr.rotl v n).wf = true ↔ n ≤ 32 := decide_eq_true_iff

theorem encodeAt_block_eq_some {rc : BitVec 5} {key counter nonce : List Word} {b : Bits} :
    encodeAt rc (.block key counter nonce) = some b ↔ (Instr.block key counter nonce).wf = true ∧
      .cmd 1#1 (BitVec.ofNat 384 (packWords (key ++ counter ++ nonce))) = b := by
  rw [encodeAt, Option.ite_none_right_eq_some, Option.some_inj]

theorem encodeAt_roundA_eq_some {rc : BitVec 5} {b : Bits} :
    encodeAt rc .roundA = some b ↔ (rc.toNat ≤ 19 ∧ rc.toNat % 2 = 0) ∧ .seq (packSeq phaseRound rc) = b := by
  rw [encodeAt, Option.ite_none_right_eq_some, Option.some_inj]

theorem encodeAt_roundB_eq_some {rc : BitVec 5} {b : Bits} :
    encodeAt rc .roundB = some b ↔ (rc.toNat ≤ 19 ∧ rc.toNat % 2 = 1) ∧ .seq (packSeq phaseRound rc) = b := by
  rw [encodeAt, Option.ite_none_right_eq_some, Option.some_inj]

theorem encodeAt_rotl_eq_some {rc : BitVec 5} {v : Word} {n : Nat} {b : Bits} :
    encodeAt rc (.rotl v n) = some b ↔ n ≤ 32 ∧ .rotamt (BitVec.ofNat 6 n) v = b := by
  rw [encodeAt, Option.ite_none_right_eq_some, Option.some_inj]

/-- Only a well-formed operation has an encoding. -/
theorem wf_of_encodeAt {rc : BitVec 5} {i : Instr} {b : Bits} (h : encodeAt rc i = some b) : i.wf = true := by
  cases i with
  | block => exact (encodeAt_block_eq_some.mp h).1
  | rotl => exact wf_rotl_iff.mpr (encodeAt_rotl_eq_some.mp h).1
  | _ => rfl

/-! ### Decoding what was encoded -/

/-- The command port reads BLOCK's arrays back: they are three segments of the twelve words (R71). -/
theorem decode_cmd_packWords {key counter nonce : List Word} (h : (Instr.block key counter nonce).wf = true) :
    decode (.cmd 1#1 (BitVec.ofNat 384 (packWords (key ++ counter ++ nonce)))) = .ok (.block key counter nonce) := by
  obtain ⟨hk, hc, hn⟩ := wf_block_iff.mp h
  have hkey := wordsAt_packWords_append (w := 384) [] key (counter ++ nonce) (by simp [hk, hc, hn])
  have hcounter := wordsAt_packWords_append (w := 384) key counter nonce (by simp [hk, hc, hn])
  have hnonce := wordsAt_packWords_append (w := 384) (key ++ counter) nonce [] (by simp [hk, hc, hn])
  simp only [List.nil_append, List.append_nil, List.append_assoc, List.length_append, List.length_nil, hk, hc, hn]
    at hkey hcounter hnonce
  rw [decode_cmd_ok, List.append_assoc, hkey, hcounter, hnonce]
  exact ⟨rfl, rfl⟩

/-- Bits that encode an operation decode to it, at every `rc`. -/
theorem decode_of_encodeAt {rc : BitVec 5} {i : Instr} {b : Bits} (h : encodeAt rc i = some b) :
    decode b = .ok i := by
  cases i with
  | block key counter nonce =>
    obtain ⟨hwf, rfl⟩ := encodeAt_block_eq_some.mp h
    exact decode_cmd_packWords hwf
  | holdIdle => cases h; exact decode_seq_ok.mpr (decodeSeq_idle rc)
  | init => cases h; exact decode_seq_ok.mpr (decodeSeq_init rc)
  | roundA =>
    obtain ⟨⟨hle, heven⟩, rfl⟩ := encodeAt_roundA_eq_some.mp h
    exact decode_roundA (by omega) heven
  | roundB =>
    obtain ⟨⟨hle, hodd⟩, rfl⟩ := encodeAt_roundB_eq_some.mp h
    exact decode_roundB hle hodd
  | final => cases h; exact decode_seq_ok.mpr (decodeSeq_final rc)
  | holdDone => cases h; exact decode_seq_ok.mpr (decodeSeq_done rc)
  | qrA0 | qrA1 | qrA2 | qrA3 | qrB0 | qrB1 | qrB2 | qrB3 => cases h; rfl
  | qr => cases h
  | rotl v n =>
    obtain ⟨hle, rfl⟩ := encodeAt_rotl_eq_some.mp h
    exact decode_rotamt_ofNat hle v

/-- Every well-formed operation but QR is encoded at the `rc` with which the sequencer first reaches it. -/
theorem exists_encode {i : Instr} (hwf : i.wf = true) (hqr : ∀ a b c d, i ≠ .qr a b c d) :
    ∃ b, encode i = some b := by
  cases i with
  | block => exact ⟨_, encodeAt_block_eq_some.mpr ⟨hwf, rfl⟩⟩
  | rotl => exact ⟨_, encodeAt_rotl_eq_some.mpr ⟨wf_rotl_iff.mp hwf, rfl⟩⟩
  | qr a b c d => exact absurd rfl (hqr a b c d)
  | _ => exact ⟨_, rfl⟩

/-- Settles O4: each format's fields read back as they were laid out. -/
theorem decodeOfEncode : Obligations.DecodeOfEncode := by
  unfold Obligations.DecodeOfEncode
  exact ⟨fun _ _ _ h => decode_of_encodeAt h, fun _ => exists_encode⟩

/-! ### Encoding what was decoded -/

/-- A SEQ value is the encoding of its operation at its own rc bits (R73). -/
theorem encodeAt_of_decodeSeq {p : BitVec 3} {rc : BitVec 5} {i : Instr} (h : decodeSeq (packSeq p rc) = some i) :
    encodeAt rc i = some (.seq (packSeq p rc)) := by
  rw [decodeSeq_packSeq] at h
  split_ifs at h with hidle hinit hround hhigh hodd hfinal hdone <;> cases h
  · rw [hidle]; rfl
  · rw [hinit]; rfl
  · rw [hround]; exact encodeAt_roundB_eq_some.mpr ⟨⟨by omega, hodd⟩, rfl⟩
  · rw [hround]; exact encodeAt_roundA_eq_some.mpr ⟨⟨by omega, by omega⟩, rfl⟩
  · rw [hfinal]; rfl
  · rw [hdone]; rfl

/-- Bits that decode to an operation are its encoding at some `rc`. -/
theorem exists_encodeAt_of_decode {b : Bits} {i : Instr} (h : decode b = .ok i) : ∃ rc, encodeAt rc i = some b := by
  cases b with
  | cmd start ib =>
    obtain ⟨rfl, rfl⟩ := decode_cmd_ok.mp h
    refine ⟨0#5, encodeAt_block_eq_some.mpr ⟨wf_block_iff.mpr (by simp), ?_⟩⟩
    rw [wordsAt_append ib 0 8 2, wordsAt_append ib 0 10 2, ofNat_packWords_wordsAt (n := 12) rfl]
  | seq w =>
    obtain ⟨p, rc, rfl⟩ : ∃ p rc, packSeq p rc = w := ⟨_, _, packSeq_fields w⟩
    exact ⟨rc, encodeAt_of_decodeSeq (decode_seq_ok.mp h)⟩
  | qrsel w => exact ⟨i.firstRc, encode_of_mem_qrselTable (i, w) (decodeQrsel_some (decode_qrsel_ok.mp h))⟩
  | rotamt n v =>
    obtain ⟨hle, rfl⟩ := decode_rotamt_ok.mp h
    exact ⟨0#5, encodeAt_rotl_eq_some.mpr ⟨hle, by rw [BitVec.ofNat_toNat, BitVec.setWidth_eq]⟩⟩

/-- Settles O5: decoded bits are an encoding, and only a well-formed operation has one. -/
theorem encodeOfDecode : Obligations.EncodeOfDecode := by
  unfold Obligations.EncodeOfDecode
  intro b i h
  obtain ⟨rc, henc⟩ := exists_encodeAt_of_decode h
  exact ⟨wf_of_encodeAt henc, rc, henc⟩

/-! ### Words written out from the spec -/

/-- Settles O3: each SEQ word is a phase and an rc, the selectors are rows of R76's table, and the words of the bundle
are read in place. -/
theorem specWordsDecode : Obligations.SpecWordsDecode := by
  unfold Obligations.SpecWordsDecode
  exact ⟨decode_seq_ok.mpr (decodeSeq_idle 0#5), decode_seq_ok.mpr (decodeSeq_init 0#5),
    decode_roundA (rc := 18#5) (by decide) (by decide), decode_roundB (rc := 19#5) (by decide) (by decide),
    decode_seq_ok.mpr (decodeSeq_final 19#5), decode_seq_ok.mpr (decodeSeq_done 19#5),
    decode_qrsel_ok.mpr rfl, decode_qrsel_ok.mpr rfl, decode_rotamt_ofNat (n := 12) (by decide) _,
    decode_cmd_ok.mpr ⟨rfl, rfl⟩⟩

end Sys2Proof.Machine

/-! Proofs: the step of a direct application (the model's slot, log 2). -/

namespace Sys2Proof.Machine

theorem step_of_fetch_refused {s : State} {r : Refusal} (hr : s.ports.rst = false) (h : fetch s = .refused r) :
    step s = .refused r := by
  simp [step, hr, h]

theorem fetch_select {s : State} {w : BitVec 16} {i : Instr} (hd : s.direct = some (.select w))
    (hi : decode (.qrsel w) = .ok i) : fetch s = .next i := by
  simp only [fetch, hd, decode_qrsel_ok.mp hi]

theorem fetch_rotate {s : State} {n : BitVec 6} {v : Word} {i : Instr} (hd : s.direct = some (.rotate n v))
    (hi : decode (.rotamt n v) = .ok i) : fetch s = .next i := by
  obtain ⟨hle, rfl⟩ := decode_rotamt_ok.mp hi
  simp only [fetch, hd, decodeRotamt, if_pos hle]

/-- A step that is given a reserved amount refuses it (R79). -/
theorem fetch_rotate_reserved {s : State} {n : BitVec 6} {v : Word} (hd : s.direct = some (.rotate n v))
    (hn : 32 < n.toNat) : fetch s = .refused (.rotAmountOutOfDomain n.toNat) := by
  simp only [fetch, hd, decodeRotamt, if_neg (Nat.not_le.mpr hn)]

theorem fetch_quarter {s : State} {a b c d : Word} (hd : s.direct = some (.quarter a b c d)) :
    fetch s = .next (.qr a b c d) := by
  simp only [fetch, hd]

/-- Settles O45: with the slot filled, what is fetched does not depend on SEQ. -/
theorem stepRunsDirectApplication : Obligations.StepRunsDirectApplication := by
  unfold Obligations.StepRunsDirectApplication
  exact fun s hr => ⟨fun w i hd hi => step_of_fetch hr (fetch_select hd hi),
    fun n v i hd hi => step_of_fetch hr (fetch_rotate hd hi),
    fun n v hd hn => step_of_fetch_refused hr (fetch_rotate_reserved hd hn),
    fun a b c d hd => step_of_fetch hr (fetch_quarter hd)⟩

end Sys2Proof.Machine
